-- ==== Sys2Proof/Word.lean ====
section
/-! DEFINITION. The widths of the SPN cipher core (00_scope.md R8, R10, R11): every value is an unsigned bit vector of a stated
width, bit 0 the least significant. -/

namespace Sys2Proof

/-- A Block, a Key or a subkey: `W` = 32 bits (R8). -/
abbrev Word := BitVec 32

/-- A nibble, an entry of the S-box or an index into it: `NIBW` = 4 bits (R8). -/
abbrev Nibble := BitVec 4

/-- One byte of a host stream (10_state.md R27). -/
abbrev Byte := BitVec 8

/-- The packed command word, `CMD_W` = 66 bits (R10, 30_encoding.md R60). -/
abbrev CmdWord := BitVec 66

/-- A lookup table of `SBOX_ENTRIES` = 16 entries, index 0 first (R8, 20_memory.md R40). -/
abbrev Table := Vector Nibble 16

end Sys2Proof
end

