-- ==== Sys2Proof/Syntax.lean ====
section
/-! DEFINITION. What can be asked of the machine: the rows of spec/opcode_table.json (`Instr`), the operands of the functional
units (`UnitPort`), the input ports (`Ports`), the assembler lines, and a call of the host procedure `PROCESS`. -/

namespace Sys2Proof

/-- The direction of a command, "an enumerated value restricted to exactly two members" (30_encoding.md R62). It is also the
select bit `dir` of a pair of units (R66): `encrypt` is 0, forward; `decrypt` is 1, inverse. -/
inductive Mode where
  | encrypt
  | decrypt
deriving DecidableEq, Repr

/-- The rows of spec/opcode_table.json, in its order: three commands of the command port (30_encoding.md R61) and ten functional
units (R66), each with the operands its rule gives it. -/
inductive Instr where
  /-- `NOP`, no command; the 65 low bits of its word carry nothing (44_block_cipher.md R124, 30_encoding.md R64). -/
  | nop
  /-- `ENC`, encrypt one Block (R122). -/
  | enc (key block : Word)
  /-- `DEC`, decrypt one Block (R123). -/
  | dec (key block : Word)
  /-- `SBOX`, forward lookup (40_sbox_tables.md R83). -/
  | sbox (i : Nibble)
  /-- `SBOX_INV`, inverse lookup (R84). -/
  | sboxInv (i : Nibble)
  /-- `ROTL32`, rotation left by a natural amount (41_key_schedule.md R90). -/
  | rotl32 (x : Word) (n : Nat)
  /-- `ROTR32`, rotation right by a natural amount (R91). -/
  | rotr32 (x : Word) (n : Nat)
  /-- `KEYSCHED`, the key schedule (R92). -/
  | keysched (key : Word)
  /-- `SUB`, forward substitution (42_substitution_layer.md R100). -/
  | sub (block subkey : Word)
  /-- `SUBINV`, inverse substitution (R101). -/
  | subinv (block subkey : Word)
  /-- `PERM`, forward permutation (43_permutation_layer.md R111). -/
  | perm (block subkey : Word)
  /-- `PERMINV`, inverse permutation (R112). -/
  | perminv (block subkey : Word)
  /-- `ROUND`, the logic of stage position `s` = 0, 1 or 2 (44_block_cipher.md R121). -/
  | round (dir : Mode) (key : Word) (s : Fin 3) (d : Word)
deriving DecidableEq, Repr

/-- The input wires of a functional unit, by the name of its pair in the opcode table (30_encoding.md R66). The select bit `dir`
that chooses the unit within the pair is not among them. -/
inductive UnitPort where
  | sbox (i : Nibble)
  | rot (x : Word) (n : Nat)
  | keysched (key : Word)
  | sub (block subkey : Word)
  | perm (block subkey : Word)
  | round (key : Word) (s : Fin 3) (d : Word)
deriving DecidableEq, Repr

/-- The input ports of one cycle, `clk` apart (10_state.md R20). `rst` is not part of the command word (30_encoding.md R60). -/
structure Ports where
  rst     : Bool
  inValid : BitVec 1
  mode    : BitVec 1
  key     : Word
  blockIn : Word
deriving DecidableEq, Repr

/-- A line of the assembler syntax, one clock cycle each (30_encoding.md R67), and the pseudo-instruction `DRAIN` (R68). -/
inductive Line where
  | rst
  | nop
  | enc (key block : Word)
  | dec (key block : Word)
  | drain
deriving DecidableEq, Repr

/-- One operation on the host's two streams (45_file_block_processor.md R143): an open, a read or a write at an offset, a close. -/
inductive StreamOp where
  | openInput
  | openOutput
  | read (offset : Nat)
  | write (offset : Nat)
  | closeInput
  | closeOutput
deriving DecidableEq, Repr

/-- The three error kinds of the system, each with the value it records (60_exceptions.md R160). No numeric code exists. -/
inductive HostError where
  /-- `key_value` is outside `0 .. 2^32 - 1` (R162). -/
  | invalidKey (value : Int)
  /-- `mode_value` is neither `encrypt` nor `decrypt` (R163). -/
  | invalidMode (value : String)
  /-- A stream could not be opened, read or written (R164). -/
  | ioFailure (op : StreamOp)
deriving DecidableEq, Repr

/-- How the host makes the pipeline empty before the first command of a `PROCESS` (70_reset_and_hazards.md R181, 60_exceptions.md
R168; log 15). -/
inductive Prepare where
  /-- It resets the core, for one cycle and this many more (45_file_block_processor.md R150). -/
  | reset (extra : Nat)
  /-- It waits until the core has drained (44_block_cipher.md R133). -/
  | drain
deriving DecidableEq, Repr

/-- What a running `PROCESS` does in one cycle, its liberty in time (45_file_block_processor.md R147, R149, R150; log 8): how many
results already taken it writes, how many chunks it reads, and whether it issues a command if a chunk is ready. -/
structure Pace where
  writes : Nat
  reads  : Nat
  issue  : Bool
deriving DecidableEq, Repr

/-- One call of `PROCESS` (45_file_block_processor.md R140): its three operands, and three free inputs of the run. `failing` says
which stream operations fail, a draw per operation (60_exceptions.md R164, D17; log 7). `prepare` is how the host empties the
pipeline first (log 15), and entry `n` of `pace` is what it does in cycle `n` of the run (log 8). -/
structure Call where
  input     : List Byte
  keyValue  : Int
  modeValue : String
  failing   : List StreamOp
  prepare   : Prepare
  pace      : List Pace
deriving DecidableEq, Repr

end Sys2Proof
end

