-- ==== Sys2Proof/WellFormed.lean ====
section
/-! DEFINITION. The checks on data from outside: a lookup table (40_sbox_tables.md R82), what may be issued on the command port
(30_encoding.md R66), and the two boundary checks of `PROCESS` (45_file_block_processor.md R141, R142). The operands of an `Instr`
need none: every value of their widths is legal (60_exceptions.md R161, 20_memory.md R40), the stage position is `Fin 3`, and a
rotation is defined for every natural amount (93_implementation_defined.md U4). -/

namespace Sys2Proof

/-- A table is well formed iff each of the values 0 to 15 occurs exactly once in it (R82). -/
abbrev Table.wellFormed (t : Table) : Prop := ∀ v : Nibble, t.toList.count v = 1

/-- The column `issuable` of the opcode table: the three commands can be put on the command port, the ten units cannot (R66). -/
def Instr.issuable : Instr → Bool
  | .nop | .enc _ _ | .dec _ _ => true
  | .sbox _ | .sboxInv _ | .rotl32 _ _ | .rotr32 _ _ | .keysched _ | .sub _ _ | .subinv _ _ | .perm _ _ | .perminv _ _
  | .round _ _ _ _ => false

/-- The key contract: the value fits the unsigned 32-bit range (R141). -/
abbrev keyInRange (v : Int) : Prop := 0 ≤ v ∧ v ≤ 0xFFFFFFFF

/-- The mode contract: exactly the two members, compared exactly, no default and no case folding (R142, 60_exceptions.md R163). -/
abbrev modeKnown (m : String) : Prop := m = "encrypt" ∨ m = "decrypt"

/-- A call that passes both boundary checks. -/
abbrev Call.wellFormed (c : Call) : Prop := keyInRange c.keyValue ∧ modeKnown c.modeValue

end Sys2Proof
end

