-- ==== Sys2Proof/Config.lean ====
section
/-! DEFINITION. The one open parameter of the hardware, the content of the S-box (00_scope.md R9, D2). A table carries the proof
that it is a bijection (40_sbox_tables.md R82); the units take it as an argument, and the machine runs with `Config.sbox`, of
which nothing is known but that it is one. -/

namespace Sys2Proof

/-- A well-formed configuration: the 16 entries of `SBOX`, a bijection of `0..15` (R80, R82). -/
structure Sbox where
  table : Table
  wf    : table.wellFormed
deriving DecidableEq, Repr

/-- The table of a permutation of the nibbles lists each value exactly once. -/
theorem Table.ofFn_wellFormed (e : Equiv.Perm Nibble) :
    Table.wellFormed (Vector.ofFn fun i : Fin 16 => e (BitVec.ofNat 4 i)) := by
  intro v
  rw [Vector.toList_ofFn]
  refine List.count_eq_one_of_mem (List.nodup_ofFn.mpr fun i j h => ?_) (List.mem_ofFn.mpr ⟨(e.symm v).toFin, by simp⟩)
  have h' := congrArg BitVec.toNat (e.injective h)
  simp only [BitVec.toNat_ofNat] at h'
  omega

/-- The table that lists the values of a permutation, index 0 first. -/
def Sbox.ofPerm (e : Equiv.Perm Nibble) : Sbox :=
  ⟨Vector.ofFn fun i : Fin 16 => e (BitVec.ofNat 4 i), Table.ofFn_wellFormed e⟩

/-- DESIGN CHOICE (log 1): the sixteen values are not in the spec (R9, U12), so they are a constant of the configuration without a
body: any bijection of `0..15`. -/
opaque Config.sboxPermutation : Equiv.Perm Nibble

/-- The table `SBOX` of the hardware, fixed when it is built (R80). -/
def Config.sbox : Sbox := Sbox.ofPerm Config.sboxPermutation

end Sys2Proof
end

