-- ==== Sys2Proof/Decode.lean ====
section
/-! DEFINITION. Command words and unit selection (30_encoding.md): the decoder of the command port, the selection of a unit within
its pair, the encoder, and the opcode table as rows of mask and match. -/

namespace Sys2Proof

/-! ## The command port -/

/-- The bit of a direction: `encrypt` is 0, `decrypt` is 1 (30_encoding.md R62). -/
def Mode.bit : Mode → BitVec 1
  | .encrypt => 0
  | .decrypt => 1

/-- The direction of a bit (R62): one bit, so there is no third value. -/
def Mode.ofBit (b : BitVec 1) : Mode := if b = 0 then .encrypt else .decrypt

/-- `CMD = {in_valid, mode, key, block_in}`, 66 bits (R60). -/
def Ports.word (p : Ports) : CmdWord := p.inValid ++ p.mode ++ p.key ++ p.blockIn

/-- The ports of one cycle with `rst` = 0 and the four fields of a command word (R60). -/
def Ports.ofWord (w : CmdWord) : Ports where
  rst     := false
  inValid := w.extractLsb' 65 1
  mode    := w.extractLsb' 64 1
  key     := w.extractLsb' 32 32
  blockIn := w.extractLsb' 0 32

/-- The decoder of the command port (R61). It is total: every one of the `2^66` words is exactly one command, none is illegal or
reserved (R64), and decoding needs no state (R65). -/
def decode (w : CmdWord) : Instr :=
  if w.getLsbD 65 = false then .nop
  else if w.getLsbD 64 = false then .enc (w.extractLsb' 32 32) (w.extractLsb' 0 32)
  else .dec (w.extractLsb' 32 32) (w.extractLsb' 0 32)

/-- The word of `NOP` is canonically all zeros (R67). -/
def nopWord : CmdWord := 0

/-- The word of `ENC k, b` is `0x2 << 64 | k << 32 | b` (R67). -/
def encWord (key block : Word) : CmdWord := (2#2 : BitVec 2) ++ key ++ block

/-- The word of `DEC k, b` is `0x3 << 64 | k << 32 | b` (R67). -/
def decWord (key block : Word) : CmdWord := (3#2 : BitVec 2) ++ key ++ block

/-! ## The functional units -/

/-- How a row of the opcode table is selected: format `CMD` by a word on the command port, format `UNIT` inside the core by the
select bit `dir` of its pair; the select is `none` for a pair whose pattern is empty (R66). -/
inductive Encoding where
  | cmd (w : CmdWord)
  | unit (u : UnitPort) (dir : Option (BitVec 1))
deriving DecidableEq, Repr

/-- Why a selection names no unit. -/
inductive Reject where
  /-- The pair needs a select bit and none is given. -/
  | missingSelect
  /-- `KEYSCHED` has no select bit and one is given. -/
  | unexpectedSelect
deriving DecidableEq, Repr

/-- The unit of a pair that the bit `dir` selects: 0 forward, 1 inverse; `ROUND` takes `dir` as an operand (R66). -/
def selectUnit (u : UnitPort) (dir : BitVec 1) : Except Reject Instr :=
  match u with
  | .sbox i          => .ok (if dir = 0 then .sbox i else .sboxInv i)
  | .rot x n         => .ok (if dir = 0 then .rotl32 x n else .rotr32 x n)
  | .keysched _      => .error .unexpectedSelect
  | .sub block sk    => .ok (if dir = 0 then .sub block sk else .subinv block sk)
  | .perm block sk   => .ok (if dir = 0 then .perm block sk else .perminv block sk)
  | .round key s d   => .ok (.round (Mode.ofBit dir) key s d)

/-- Decoding of a whole row, total, rejecting by name. -/
def decodeEncoding : Encoding → Except Reject Instr
  | .cmd w                     => .ok (decode w)
  | .unit u (some dir)         => selectUnit u dir
  | .unit (.keysched key) none => .ok (.keysched key)
  | .unit (.sbox _) none | .unit (.rot _ _) none | .unit (.sub _ _) none | .unit (.perm _ _) none
  | .unit (.round _ _ _) none  => .error .missingSelect

/-- The encoder: the canonical word of a command (R67), or the pair, select bit and operands of a unit (R66). -/
def encode : Instr → Encoding
  | .nop               => .cmd nopWord
  | .enc key block     => .cmd (encWord key block)
  | .dec key block     => .cmd (decWord key block)
  | .sbox i            => .unit (.sbox i) (some 0)
  | .sboxInv i         => .unit (.sbox i) (some 1)
  | .rotl32 x n        => .unit (.rot x n) (some 0)
  | .rotr32 x n        => .unit (.rot x n) (some 1)
  | .keysched key      => .unit (.keysched key) none
  | .sub block sk      => .unit (.sub block sk) (some 0)
  | .subinv block sk   => .unit (.sub block sk) (some 1)
  | .perm block sk     => .unit (.perm block sk) (some 0)
  | .perminv block sk  => .unit (.perm block sk) (some 1)
  | .round dir key s d => .unit (.round key s d) (some dir.bit)

/-! ## The opcode table -/

/-- The name of a pair in the opcode table's column `pair`. -/
inductive Pair where
  | sbox | rot | keysched | sub | perm | round
deriving DecidableEq, Repr

/-- The pair whose input wires these are. -/
def UnitPort.pair : UnitPort → Pair
  | .sbox _ => .sbox
  | .rot _ _ => .rot
  | .keysched _ => .keysched
  | .sub _ _ => .sub
  | .perm _ _ => .perm
  | .round _ _ _ => .round

/-- A row of the opcode table: `pair` is `none` for format `CMD`. -/
structure Row where
  mnemonic : String
  pair     : Option Pair
  width    : Nat
  mask     : Nat
  pattern  : Nat
deriving DecidableEq, Repr

/-- The row of an instruction, as spec/opcode_table.json gives it (30_encoding.md R61, R66). -/
def Instr.row : Instr → Row
  | .nop           => ⟨"NOP", none, 66, 0x20000000000000000, 0x00000000000000000⟩
  | .enc _ _       => ⟨"ENC", none, 66, 0x30000000000000000, 0x20000000000000000⟩
  | .dec _ _       => ⟨"DEC", none, 66, 0x30000000000000000, 0x30000000000000000⟩
  | .sbox _        => ⟨"SBOX", some .sbox, 1, 1, 0⟩
  | .sboxInv _     => ⟨"SBOX_INV", some .sbox, 1, 1, 1⟩
  | .rotl32 _ _    => ⟨"ROTL32", some .rot, 1, 1, 0⟩
  | .rotr32 _ _    => ⟨"ROTR32", some .rot, 1, 1, 1⟩
  | .keysched _    => ⟨"KEYSCHED", some .keysched, 0, 0, 0⟩
  | .sub _ _       => ⟨"SUB", some .sub, 1, 1, 0⟩
  | .subinv _ _    => ⟨"SUBINV", some .sub, 1, 1, 1⟩
  | .perm _ _      => ⟨"PERM", some .perm, 1, 1, 0⟩
  | .perminv _ _   => ⟨"PERMINV", some .perm, 1, 1, 1⟩
  | .round _ _ _ _ => ⟨"ROUND", some .round, 1, 0, 0⟩

/-- Whether a row's mask and match admit an encoding. Patterns of two `UNIT` rows are comparable only within a pair (R66). -/
def Row.admits (r : Row) : Encoding → Bool
  | .cmd w              => r.pair.isNone && r.width == 66 && w.toNat &&& r.mask == r.pattern
  | .unit u (some dir)  => r.pair == some u.pair && r.width == 1 && dir.toNat &&& r.mask == r.pattern
  | .unit u none        => r.pair == some u.pair && r.width == 0

/-! ## Table words and assembler lines -/

/-- The instruction the command port reads from `w`, bit 0 the least significant. Only a value of the whole command word is one:
there is one command length, 66 bits (R60). A `UNIT` row's one-bit pattern is no word of any port, so fewer bits are refused
(R66; log 12). -/
def decodeTableWord (nbits w : Nat) : Option Instr :=
  if 66 ≤ nbits ∧ w < 2 ^ 66 then some (decode (BitVec.ofNat 66 w)) else none

/-- A cycle with no command: `rst` = 0 and the canonical word of `NOP` (R67). -/
def Ports.idle : Ports := Ports.ofWord nopWord

/-- A cycle with `rst` = 1, the line `RST` (R67); the command word is ignored (70_reset_and_hazards.md R180). -/
def Ports.reset : Ports := { Ports.idle with rst := true }

/-- A cycle that presents one command: `in_valid` = 1 with the mode, key and block (10_state.md R20, R149). -/
def Ports.command (mode : Mode) (key block : Word) : Ports :=
  ⟨false, 1, mode.bit, key, block⟩

/-- The cycles an assembler line stands for (R67); `DRAIN` is three `NOP`s (R68). -/
def Line.cycles : Line → List Ports
  | .rst           => [Ports.reset]
  | .nop           => [Ports.ofWord nopWord]
  | .enc key block => [Ports.ofWord (encWord key block)]
  | .dec key block => [Ports.ofWord (decWord key block)]
  | .drain         => [Ports.ofWord nopWord, Ports.ofWord nopWord, Ports.ofWord nopWord]

end Sys2Proof
end

