-- ==== Sys2Proof/Machine/State.lean ====
section
/-! DEFINITION. The state as plain data: the three pipeline stages (10_state.md R21, R22, R31), the input ports of the current
cycle (R20), and the host that drives them (44_block_cipher.md R129), the File Block Processor included
(45_file_block_processor.md). INVENTORY.md lists every field with its rule and reset value. -/

namespace Sys2Proof.Machine

/-- A block in flight with the mode and the key that travel with it: the data of `S1` or `S2` (10_state.md R21). -/
structure Stage where
  mode : Mode
  key  : Word
  data : Word
deriving DecidableEq, Repr

/-- What the host does with `block_out` in a cycle (45_file_block_processor.md R150). -/
inductive Take where
  /-- It does not look at the result port; it may ignore a result. -/
  | ignore
  /-- It watches `out_valid` and takes a result in the cycle it is presented (70_reset_and_hazards.md R186). -/
  | whenValid
  /-- It uses `block_out` whatever `out_valid` says, which it must not do while `out_valid` = 0 (10_state.md R30). -/
  | always
deriving DecidableEq, Repr

/-- One item of the host's program: the ports of one cycle and what it does with the result port in that cycle, or a call of
`PROCESS`. -/
inductive Action where
  | cycle (ports : Ports) (take : Take)
  | process (call : Call)
deriving DecidableEq, Repr

/-- What `PROCESS` returns to its caller: the output stream, or one of the three errors (R140, 60_exceptions.md R165). -/
inductive Result where
  | ok (out : List Byte)
  | error (e : HostError)
deriving DecidableEq, Repr

/-- The end of one `PROCESS`: the result the caller gets, and for the record the stream operations performed in order, the number
of commands issued, and the complete blocks written, which stay written after an error (60_exceptions.md R165, R168). -/
structure Return where
  result   : Result
  trace    : List StreamOp
  commands : Nat
  written  : List Byte
deriving DecidableEq, Repr

/-- Whether a running `PROCESS` still reads: the input is exhausted, or a read has failed (45_file_block_processor.md R143). -/
inductive Feed where
  | reading
  | exhausted
  | failed (e : HostError)
deriving DecidableEq, Repr

/-- A `PROCESS` that has passed its boundary checks and opened its streams (R143, R149). `lead` holds the cycles it still spends on
emptying the pipeline (70_reset_and_hazards.md R181), `pace` what it does in the cycles to come (log 8). `offset` is the next read;
`queue` holds the Blocks read whose commands have not been issued, oldest first; `inFlight` counts the commands issued whose results
have not been taken; `results` are the results taken and not yet written, oldest first; `written` is the output stream. -/
structure Job where
  call     : Call
  key      : Word
  mode     : Mode
  lead     : List Ports
  pace     : List Pace
  offset   : Nat
  queue    : List Word
  inFlight : Nat
  results  : List Word
  written  : List Byte
  feed     : Feed
  trace    : List StreamOp
  commands : Nat
deriving DecidableEq, Repr

/-- The File Block Processor: at rest, or carrying out one `PROCESS`. -/
inductive Driver where
  | idle
  | running (job : Job)
deriving DecidableEq, Repr

/-- The output wires of a functional unit: 4 bits, 32 bits, or the three subkeys (30_encoding.md R66). -/
inductive UnitOut where
  | nibble (v : Nibble)
  | word (v : Word)
  | subkeys (k0 k1 k2 : Word)
deriving DecidableEq, Repr

/-- The machine. `s1`, `s2`, `s3` are all the state of the core (10_state.md R31): `none` is a bubble, whose data has no value
(R22). `ports` and `take` belong to the current cycle; `agenda`, `taken`, `driver` and `returns` are the host (log 4). `unitOut`
is the model's own field, the output of the functional unit last evaluated by itself (log 3). -/
structure State where
  s1      : Option Stage
  s2      : Option Stage
  s3      : Option Word
  ports   : Ports
  take    : Take
  agenda  : List Action
  taken   : List Word
  driver  : Driver
  returns : List Return
  unitOut : Option UnitOut
deriving DecidableEq, Repr

/-- Why the machine stops with a fault. -/
inductive Fault where
  /-- The host used `block_out` in a cycle with `out_valid` = 0, a read of a value never written (10_state.md R30, U2). Raised by
  `step` for the host's action `Take.always`; the core itself raises nothing (60_exceptions.md R161). Safe: the hardware would put
  some unspecified value on the port and go on. -/
  | blockOutWhileInvalid
deriving DecidableEq, Repr

/-- Why something has no meaning. -/
inductive Refusal where
  /-- An instruction without a meaning yet; raised by no arm of `exec`, every row has its meaning. Safe. -/
  | notModelled (mnemonic : String)
  /-- A table that is not a bijection is no configuration of this hardware (40_sbox_tables.md R82). Raised by `configure` when a
  configuration is built, never by `step`. Safe. -/
  | sboxNotBijective
deriving DecidableEq, Repr

/-- The machine right after a clock edge with `rst` = 1: three bubbles (10_state.md R29, R31). The host's own fields are at rest,
with an idle cycle on the ports (DESIGN CHOICE, log 2); no unit has been evaluated by itself (DESIGN CHOICE, log 3). -/
def State.reset : State where
  s1      := none
  s2      := none
  s3      := none
  ports   := ⟨false, 0, 0, 0, 0⟩
  take    := .ignore
  agenda  := []
  taken   := []
  driver  := .idle
  returns := []
  unitOut := none

end Sys2Proof.Machine
end

