-- ==== Sys2Proof/Machine/Flags.lean ====
section
/-! DEFINITION. The only flags of the core, the three valid bits (10_state.md R25), and the outputs, functions of stage 3 alone
(R30). There is no condition code and no error flag. -/

namespace Sys2Proof.Machine

/-- `V1`: stage 1 holds a block (R21). -/
def State.v1 (s : State) : Bool := s.s1.isSome

/-- `V2`: stage 2 holds a block (R21). -/
def State.v2 (s : State) : Bool := s.s2.isSome

/-- `V3`: stage 3 holds a result (R21). -/
def State.v3 (s : State) : Bool := s.s3.isSome

/-- The port `out_valid` is `V3` (R30). -/
def State.outValid (s : State) : Bool := s.v3

/-- The port `block_out`: `D3` while `V3` = 1, and no value otherwise (R30, U2). -/
def State.blockOut (s : State) : Option Word := s.s3

end Sys2Proof.Machine
end

