-- ==== Sys2Proof/Machine/Operands.lean ====
section
/-! DEFINITION. The derived operands of 30_encoding.md R63 and the slices they are made of (00_scope.md R11 to R13,
20_memory.md R41, R42). -/

namespace Sys2Proof.Machine

/-- `nib(v, p)`: the nibble at position `p`, `v[4p+3:4p]`, nibble 0 the least significant (00_scope.md R13). -/
def nib (v : Word) (p : Fin 8) : Nibble := v.extractLsb' (4 * p.val) 4

/-- `join(n7, …, n0)` = `{n7, n6, n5, n4, n3, n2, n1, n0}` (R13). -/
def join (n : Fin 8 → Nibble) : Word := n 7 ++ n 6 ++ n 5 ++ n 4 ++ n 3 ++ n 2 ++ n 1 ++ n 0

/-- The rotation amount of a permutation layer, `subkey & 0x1F`, 0 to 31 (43_permutation_layer.md R110). -/
def rotAmount (subkey : Word) : Nat := (subkey &&& 0x1F).toNat

/-- The round index at stage position `s`: `s` for an encrypt, `2 - s` for a decrypt (44_block_cipher.md R121). -/
def roundIndex (dir : Mode) (s : Fin 3) : Nat :=
  match dir with
  | .encrypt => s.val
  | .decrypt => 2 - s.val

/-- A chunk shorter than 4 bytes is padded with zero bytes on the right (45_file_block_processor.md R144). -/
def padChunk (c : List Byte) : List Byte := c ++ List.replicate (4 - c.length) 0

/-- The Block of four consecutive bytes, big-endian (20_memory.md R41). -/
def blockOfBytes (b0 b1 b2 b3 : Byte) : Word := b0 ++ b1 ++ b2 ++ b3

/-- The Block of a chunk, byte `i` of the padded chunk standing for `c[i]` (R143). -/
def blockOfChunk (c : List Byte) : Word :=
  let p := padChunk c
  blockOfBytes (p.getD 0 0) (p.getD 1 0) (p.getD 2 0) (p.getD 3 0)

/-- The four bytes of a result Block, most significant first (R41). -/
def bytesOfBlock (r : Word) : List Byte :=
  [r.extractLsb' 24 8, r.extractLsb' 16 8, r.extractLsb' 8 8, r.extractLsb' 0 8]

end Sys2Proof.Machine
end

