-- ==== Sys2Proof/Machine/Ops.lean ====
section
/-! DEFINITION. The named operations: reading the two tables, building a configuration, the reset edge, the output wires of a unit,
the host's streams, and reporting an error of `PROCESS` to its caller, which stands where a trap entry would
(60_exceptions.md R168). -/

namespace Sys2Proof.Machine

/-! ## The lookup tables -/

/-- Entry `i` of `SBOX` (40_sbox_tables.md R83). -/
def sboxRead (T : Sbox) (i : Nibble) : Nibble := T.table[i.toNat]

/-- Entry `i` of `SBOX_INV`: the unique `v` with `SBOX[v] = i` (R81, R84), looked for among the sixteen. The default is never
reached, since a well-formed table holds every value. -/
def sboxInvRead (T : Sbox) (i : Nibble) : Nibble :=
  (((List.range 16).map (BitVec.ofNat 4)).find? fun v => sboxRead T v == i).getD 0

/-- A configuration is built from a table that is a bijection and from no other (R82, 70_reset_and_hazards.md R181). -/
def configure (t : Table) : Except Refusal Sbox :=
  if h : t.wellFormed then .ok ⟨t, h⟩ else .error .sboxNotBijective

/-! ## The core -/

/-- The edge with `rst` = 1: all three valid bits fall together and nothing else is touched (70_reset_and_hazards.md R180). -/
def State.resetEdge (s : State) : State := { s with s1 := none, s2 := none, s3 := none }

/-- Evaluating a functional unit by itself: it is combinational, so nothing changes but the model's record of its output wires
(30_encoding.md R66; log 3). -/
def State.setUnitOut (s : State) (o : UnitOut) : State := { s with unitOut := some o }

/-- The command sampled at the edge that ends a cycle: `in_valid` = 1 and `rst` = 0 (44_block_cipher.md R130). -/
def portCommand (p : Ports) : Option Stage :=
  if p.rst = true ∨ p.inValid = 0 then none else some ⟨Mode.ofBit p.mode, p.key, p.blockIn⟩

/-- How many cycles without a command must follow this one until the pipeline is empty (44_block_cipher.md R133): none after a
reset, three after a command, and fewer the further the youngest block has come. -/
def State.busy (s : State) : Nat :=
  if s.ports.rst = true then 0
  else if (portCommand s.ports).isSome then 3
  else if s.s1.isSome then 2
  else if s.s2.isSome then 1
  else 0

/-! ## The host's streams -/

/-- `MemRead(a, 4)`: the bytes at offsets `a .. min(a+4, L) - 1` of the input stream (20_memory.md R45). -/
def memRead (input : List Byte) (a : Nat) : List Byte := (input.drop a).take 4

/-- `MemWrite(a, 4, v)`: the output stream with the four bytes of `v` appended at its end `a` (R46). -/
def memWrite (out : List Byte) (v : Word) : List Byte := out ++ bytesOfBlock v

/-- Both streams are closed on every exit path (45_file_block_processor.md R148). The order is DEDUCED (log 10), and a failing
close changes nothing of the outcome already decided (60_exceptions.md R169; log 9). -/
def closeOps : List StreamOp := [.closeInput, .closeOutput]

/-- The operations of opening the two streams, and the error if one fails; the input is opened first and is closed if the output
cannot be opened (R143, R148; log 10). -/
def openStreams (failing : List StreamOp) : List StreamOp × Option HostError :=
  if StreamOp.openInput ∈ failing then ([.openInput], some (.ioFailure .openInput))
  else if StreamOp.openOutput ∈ failing then ([.openInput, .openOutput, .closeInput], some (.ioFailure .openOutput))
  else ([.openInput, .openOutput], none)

/-- The boundary checks of `PROCESS`, before any I/O and before any command, the key first (R143, 60_exceptions.md R167). -/
def boundary (c : Call) : Except HostError (Word × Mode) :=
  if ¬ keyInRange c.keyValue then .error (.invalidKey c.keyValue)
  else if c.modeValue = "encrypt" then .ok (BitVec.ofInt 32 c.keyValue, .encrypt)
  else if c.modeValue = "decrypt" then .ok (BitVec.ofInt 32 c.keyValue, .decrypt)
  else .error (.invalidMode c.modeValue)

/-! ## The end of a `PROCESS` -/

/-- `PROCESS` returns to its caller: the driver is at rest and the host holds an idle cycle on the ports (R149). -/
def State.returnCall (s : State) (r : Return) : State :=
  { s with driver := .idle, ports := Ports.idle, take := .ignore, returns := s.returns ++ [r] }

/-- What an error does, in place of a trap entry (60_exceptions.md R168): it ends the current `PROCESS` and returns the error kind
to the caller. The core's own state is not changed; bytes already written stay written (R165). -/
def State.raiseError (s : State) (e : HostError) (trace : List StreamOp) (commands : Nat) (written : List Byte) : State :=
  s.returnCall ⟨.error e, trace, commands, written⟩

end Sys2Proof.Machine
end

