-- ==== Sys2Proof/Machine/Rotation.lean ====
section
/-! DEFINITION. The rotation units and the key schedule (41_key_schedule.md R90 to R94). An amount that is a multiple of 32 is
taken by the guard, so that no shift by 32 is ever evaluated (70_reset_and_hazards.md R184, U3). -/

namespace Sys2Proof.Machine

/-- `rotl32(x, n)`: circular rotation left by `n mod 32` (R90). -/
def rotl32 (x : Word) (n : Nat) : Word :=
  let m := n % 32
  if m = 0 then x else x <<< m ||| x >>> (32 - m)

/-- `rotr32(x, n)`: circular rotation right by `n mod 32` (R91). -/
def rotr32 (x : Word) (n : Nat) : Word :=
  let m := n % 32
  if m = 0 then x else x >>> m ||| x <<< (32 - m)

/-- `subkey[i] = rotl32(key, 5 * i)` (R92). -/
def subkey (key : Word) (i : Nat) : Word := rotl32 key (5 * i)

/-- `KEYSCHED(key)`, the subkey set, in the order of the round index (R92). -/
def keyschedUnit (key : Word) : UnitOut := .subkeys (subkey key 0) (subkey key 1) (subkey key 2)

/-- `ROTL32` (R90). Flags: none. Exceptions: none, it is total. -/
def execRotl32 (x : Word) (n : Nat) (s : State) : Host.Outcome State Fault Refusal :=
  .next (s.setUnitOut (.word (rotl32 x n)))

/-- `ROTR32` (R91). Flags: none. Exceptions: none. -/
def execRotr32 (x : Word) (n : Nat) (s : State) : Host.Outcome State Fault Refusal :=
  .next (s.setUnitOut (.word (rotr32 x n)))

/-- `KEYSCHED` (R92). Flags: none. Exceptions: none in the core (90_conflicts.md C3). -/
def execKeysched (key : Word) (s : State) : Host.Outcome State Fault Refusal :=
  .next (s.setUnitOut (keyschedUnit key))

end Sys2Proof.Machine
end

