-- ==== Sys2Proof/Machine/Permutation.lean ====
section
/-! DEFINITION. The permutation layer, a rotation by the low five bits of the subkey (43_permutation_layer.md R110 to R112). -/

namespace Sys2Proof.Machine

/-- `PERM(block, subkey)`: rotate left by `subkey & 0x1F` (R111). -/
def permUnit (block subkey : Word) : Word := rotl32 block (rotAmount subkey)

/-- `PERMINV(block, subkey)`: rotate right by `subkey & 0x1F` (R112). -/
def permInvUnit (block subkey : Word) : Word := rotr32 block (rotAmount subkey)

/-- `PERM` (R111). Flags: none. Exceptions: none. -/
def execPerm (block subkey : Word) (s : State) : Host.Outcome State Fault Refusal :=
  .next (s.setUnitOut (.word (permUnit block subkey)))

/-- `PERMINV` (R112). Flags: none. Exceptions: none. -/
def execPerminv (block subkey : Word) (s : State) : Host.Outcome State Fault Refusal :=
  .next (s.setUnitOut (.word (permInvUnit block subkey)))

end Sys2Proof.Machine
end

