-- ==== Sys2Proof/Machine/Substitution.lean ====
section
/-! DEFINITION. The substitution layer, eight independent lanes of 4 bits (42_substitution_layer.md R100 to R102). -/

namespace Sys2Proof.Machine

/-- `SUB(block, subkey)`: the key nibble is mixed in before the lookup (R100). -/
def subUnit (T : Sbox) (block subkey : Word) : Word :=
  join fun p => sboxRead T (nib block p ^^^ nib subkey p)

/-- `SUBINV(block, subkey)`: the key nibble is mixed in after the lookup (R101). -/
def subInvUnit (T : Sbox) (block subkey : Word) : Word :=
  join fun p => sboxInvRead T (nib block p) ^^^ nib subkey p

/-- `SUB` (R100). Flags: none. Exceptions: none. -/
def execSub (block subkey : Word) (s : State) : Host.Outcome State Fault Refusal :=
  .next (s.setUnitOut (.word (subUnit Config.sbox block subkey)))

/-- `SUBINV` (R101). Flags: none. Exceptions: none. -/
def execSubinv (block subkey : Word) (s : State) : Host.Outcome State Fault Refusal :=
  .next (s.setUnitOut (.word (subInvUnit Config.sbox block subkey)))

end Sys2Proof.Machine
end

