-- ==== Sys2Proof/Machine/Cipher.lean ====
section
/-! DEFINITION. The block cipher and its pipeline (44_block_cipher.md): the round, the two transforms as the source gives them, and
the advance of the three stages at a clock edge, with the meanings of `ROUND`, `NOP`, `ENC` and `DEC`. -/

namespace Sys2Proof.Machine

/-- The encrypt round: substitution then permutation, both with the same subkey (R120). -/
def encRound (T : Sbox) (b sk : Word) : Word := permUnit (subUnit T b sk) sk

/-- The decrypt round: inverse permutation then inverse substitution (R120). -/
def decRound (T : Sbox) (b sk : Word) : Word := subInvUnit T (permInvUnit b sk) sk

/-- `ROUND(dir, key, s, d)`, the logic in front of stage position `s` (R121). -/
def roundUnit (T : Sbox) (dir : Mode) (key : Word) (s : Fin 3) (d : Word) : Word :=
  let sk := rotl32 key (5 * roundIndex dir s)
  match dir with
  | .encrypt => encRound T d sk
  | .decrypt => decRound T d sk

/-- `ENC(block, key)`: for round index 0, 1, 2 in this order, substitution then permutation (R122). -/
def encBlock (T : Sbox) (block key : Word) : Word :=
  [0, 1, 2].foldl (fun b r => permUnit (subUnit T b (subkey key r)) (subkey key r)) block

/-- `DEC(block, key)`: for round index 2, 1, 0 in this order, inverse permutation then inverse substitution (R123). -/
def decBlock (T : Sbox) (block key : Word) : Word :=
  [2, 1, 0].foldl (fun b r => subInvUnit T (permInvUnit b (subkey key r)) (subkey key r)) block

/-- The result of a command: `ENC` or `DEC` as its mode says (R131). -/
def cryptBlock (T : Sbox) (mode : Mode) (block key : Word) : Word :=
  match mode with
  | .encrypt => encBlock T block key
  | .decrypt => decBlock T block key

/-- A block passes the logic of one stage position; its mode and key travel with it (R130). -/
def Stage.through (T : Sbox) (position : Fin 3) (st : Stage) : Stage :=
  { st with data := roundUnit T st.mode st.key position st.data }

/-- The clock edge with `rst` = 0: all three stages are written at once from the values held before it, stage 1 from the command on
the ports, if there is one; the old result in stage 3 is overwritten (R130). -/
def State.advance (T : Sbox) (s : State) (command : Option Stage) : State :=
  { s with
    s1 := command.map (Stage.through T 0)
    s2 := s.s1.map (Stage.through T 1)
    s3 := s.s2.map fun st => (Stage.through T 2 st).data }

/-- `ROUND` evaluated by itself (R121). Flags: none. Exceptions: none. -/
def execRound (dir : Mode) (key : Word) (position : Fin 3) (d : Word) (s : State) : Host.Outcome State Fault Refusal :=
  .next (s.setUnitOut (.word (roundUnit Config.sbox dir key position d)))

/-- `NOP`: stage 1 becomes a bubble at this edge, the other stages advance (R124). -/
def execNop (s : State) : Host.Outcome State Fault Refusal :=
  .next (s.advance Config.sbox none)

/-- `ENC`: the block enters stage 1 through the logic of position 0 with `mode` = 0 (R122, R130). -/
def execEnc (key block : Word) (s : State) : Host.Outcome State Fault Refusal :=
  .next (s.advance Config.sbox (some ⟨.encrypt, key, block⟩))

/-- `DEC`: the block enters stage 1 through the logic of position 0 with `mode` = 1 (R123, R130). -/
def execDec (key block : Word) (s : State) : Host.Outcome State Fault Refusal :=
  .next (s.advance Config.sbox (some ⟨.decrypt, key, block⟩))

end Sys2Proof.Machine
end

