-- ==== Sys2Proof/Machine/Tables.lean ====
section
/-! DEFINITION. The two lookup units `SBOX` and `SBOX_INV` (40_sbox_tables.md R83, R84). -/

namespace Sys2Proof.Machine

/-- `SBOX`, forward lookup (R83). Flags: none. Exceptions: none. -/
def execSbox (i : Nibble) (s : State) : Host.Outcome State Fault Refusal :=
  .next (s.setUnitOut (.nibble (sboxRead Config.sbox i)))

/-- `SBOX_INV`, inverse lookup (R84). Flags: none. Exceptions: none. -/
def execSboxInv (i : Nibble) (s : State) : Host.Outcome State Fault Refusal :=
  .next (s.setUnitOut (.nibble (sboxInvRead Config.sbox i)))

end Sys2Proof.Machine
end

