-- ==== Sys2Proof/Machine/Dispatch.lean ====
section
/-! DEFINITION. One arm per row of spec/opcode_table.json. -/

namespace Sys2Proof.Machine

def exec (i : Instr) (s : State) : Host.Outcome State Fault Refusal :=
  match i with
  | .nop => Sys2Proof.Machine.execNop s
  | .enc key block => Sys2Proof.Machine.execEnc key block s
  | .dec key block => Sys2Proof.Machine.execDec key block s
  | .sbox x => Sys2Proof.Machine.execSbox x s
  | .sboxInv x => Sys2Proof.Machine.execSboxInv x s
  | .rotl32 x n => Sys2Proof.Machine.execRotl32 x n s
  | .rotr32 x n => Sys2Proof.Machine.execRotr32 x n s
  | .keysched key => Sys2Proof.Machine.execKeysched key s
  | .sub block sk => Sys2Proof.Machine.execSub block sk s
  | .subinv block sk => Sys2Proof.Machine.execSubinv block sk s
  | .perm block sk => Sys2Proof.Machine.execPerm block sk s
  | .perminv block sk => Sys2Proof.Machine.execPerminv block sk s
  | .round dir key position d => Sys2Proof.Machine.execRound dir key position d s

end Sys2Proof.Machine
end

