-- ==== Sys2Proof/Machine/Host.lean ====
section
/-! DEFINITION. The host's half of a cycle (44_block_cipher.md R129): it may take the result on the output ports, and it chooses
the input ports of the next cycle, from its agenda or as the File Block Processor (45_file_block_processor.md R143, R149). -/

namespace Sys2Proof.Machine

/-! ## The File Block Processor, one cycle at a time -/

/-- What the driver does in one cycle: it goes on with these ports in the next cycle, or `PROCESS` ends. -/
inductive DriverMove where
  | go (job : Job) (ports : Ports)
  | stop (r : Return)
deriving DecidableEq, Repr

/-- `PROCESS` ends with this result: both streams are closed (R148). -/
def Job.finish (j : Job) (result : Result) : Return := ⟨result, j.trace ++ closeOps, j.commands, j.written⟩

/-- The driver takes the result presented in this cycle, if it waits for one (R149). A result that no command of this `PROCESS`
produced is not taken (70_reset_and_hazards.md R181). -/
def Job.takeResult (j : Job) (out : Option Word) : Job :=
  match out with
  | none => j
  | some r => if j.inFlight = 0 then j else { j with results := j.results ++ [r], inFlight := j.inFlight - 1 }

/-- The driver hands the oldest result taken to `MemWrite` at the end of the output (R149, 20_memory.md R46). A failing write ends
the `PROCESS` (60_exceptions.md R164). -/
def Job.writeOne (j : Job) : Except Return Job :=
  match j.results with
  | [] => .ok j
  | r :: rs =>
    let tried := { j with trace := j.trace ++ [StreamOp.write j.written.length] }
    if StreamOp.write j.written.length ∈ j.call.failing then
      .error (tried.finish (.error (.ioFailure (.write j.written.length))))
    else .ok { tried with written := memWrite j.written r, results := rs }

/-- Up to `n` writes, the first failing one ends them. -/
def Job.writeMany : Nat → Job → Except Return Job
  | 0, j => .ok j
  | n + 1, j =>
    match j.writeOne with
    | .error r => .error r
    | .ok j'   => Job.writeMany n j'

/-- The driver reads the next chunk and queues its Block, a short one padded (R144), or finds that the input is exhausted or that
the read fails (R143). After that it reads no more. -/
def Job.readOne (j : Job) : Job :=
  match j.feed with
  | .exhausted | .failed _ => j
  | .reading =>
    let tried := { j with trace := j.trace ++ [StreamOp.read j.offset] }
    if StreamOp.read j.offset ∈ j.call.failing then { tried with feed := .failed (.ioFailure (.read j.offset)) }
    else
      match memRead j.call.input j.offset with
      | []      => { tried with feed := .exhausted }
      | b :: bs => { tried with offset := j.offset + 4, queue := j.queue ++ [blockOfChunk (b :: bs)] }

/-- Up to `n` reads. -/
def Job.readMany : Nat → Job → Job
  | 0, j => j
  | n + 1, j => Job.readMany n j.readOne

/-- The result of the `PROCESS`, once it reads no more and every chunk read has been issued, taken and written (R143, R149). A read
that failed is reported now, after everything that comes before it in stream order (60_exceptions.md R167, R168; log 8). -/
def Job.outcome (j : Job) : Option Result :=
  if j.queue = [] ∧ j.inFlight = 0 ∧ j.results = [] then
    match j.feed with
    | .reading   => none
    | .exhausted => some (.ok j.written)
    | .failed e  => some (.error e)
  else none

/-- The ports of the next cycle: a cycle that leads up to the first command, or the command of the oldest Block in the queue if the
host wants to issue one, or an idle cycle (R149). -/
def Job.choosePorts (j : Job) (issue : Bool) : DriverMove :=
  match j.lead with
  | p :: ps => .go { j with lead := ps } p
  | [] =>
    match j.queue with
    | [] => .go j Ports.idle
    | b :: bs =>
      if issue then
        .go { j with queue := bs, inFlight := j.inFlight + 1, commands := j.commands + 1 } (Ports.command j.mode j.key b)
      else .go j Ports.idle

/-- What the driver does in a cycle for which its call says nothing: it keeps going (DESIGN CHOICE, log 8). -/
def Pace.eager : Pace := ⟨1, 1, true⟩

/-- One cycle of the driver: the result port, its writes, its reads, and then either the end or the ports of the next cycle. -/
def Job.move (j : Job) (out : Option Word) : DriverMove :=
  let now := j.pace.headD Pace.eager
  match ({ j with pace := j.pace.tail }.takeResult out).writeMany now.writes with
  | .error r => .stop r
  | .ok j1   =>
    let j2 := j1.readMany now.reads
    match j2.outcome with
    | some result => .stop (j2.finish result)
    | none        => j2.choosePorts now.issue

/-- The job of a `PROCESS` whose checks have passed and whose streams are open (R143). -/
def Job.start (c : Call) (key : Word) (mode : Mode) (lead : List Ports) (trace : List StreamOp) : Job where
  call     := c
  key      := key
  mode     := mode
  lead     := lead
  pace     := c.pace
  offset   := 0
  queue    := []
  inFlight := 0
  results  := []
  written  := []
  feed     := .reading
  trace    := trace
  commands := 0

/-- The first of the cycles before the first command, and the rest of them (70_reset_and_hazards.md R181, 60_exceptions.md R168: just
reset, or drained, as the call says). DESIGN CHOICE (log 15): they start in the cycle after the call, and to drain the host leaves
as many idle cycles as the commands it presented need, one at least. -/
def State.prepareCycles (s : State) : Prepare → Ports × List Ports
  | .reset extra => (Ports.reset, List.replicate extra Ports.reset)
  | .drain       => (Ports.idle, List.replicate (s.busy - 1) Ports.idle)

/-- A call of `PROCESS`: the boundary checks and the opening of the streams, each of which can end it at once; otherwise the host
makes the pipeline empty before the first command, by a reset or by waiting, as the call says (R143, R149, 70_reset_and_hazards.md
R181; DESIGN CHOICE, log 15). -/
def State.startProcess (s : State) (c : Call) : State :=
  match boundary c with
  | .error e => s.raiseError e [] 0 []
  | .ok (key, mode) =>
    match openStreams c.failing with
    | (trace, some e) => s.raiseError e trace 0 []
    | (trace, none)   =>
      let (first, lead) := s.prepareCycles c.prepare
      { s with driver := .running (Job.start c key mode lead trace), ports := first, take := .ignore }

/-! ## The host's half of a cycle -/

/-- Outside a `PROCESS` the host takes the result presented in this cycle if it wants it; a result not taken is lost to it
(70_reset_and_hazards.md R186). -/
def State.hostTake (s : State) : State :=
  match s.take, s.s3 with
  | .whenValid, some r | .always, some r => { s with taken := s.taken ++ [r] }
  | .ignore, _ | .whenValid, none | .always, none => s

/-- The host chooses the ports of the next cycle: the running `PROCESS` does, or else the next item of the agenda; with nothing to
do it holds `in_valid` = 0 (R149). -/
def State.hostChoose (s : State) : State :=
  match s.driver with
  | .running j =>
    match j.move s.blockOut with
    | .go j' p => { s with driver := .running j', ports := p, take := .ignore }
    | .stop r  => s.returnCall r
  | .idle =>
    match s.agenda with
    | []               => { s with ports := Ports.idle, take := .ignore }
    | .cycle p t :: as => { s with ports := p, take := t, agenda := as }
    | .process c :: as => { s with agenda := as }.startProcess c

/-- The host's half of a cycle. -/
def State.hostMove (s : State) : State := s.hostTake.hostChoose

/-- The host uses `block_out` in a cycle in which no result is presented (10_state.md R30). -/
def State.usesNoResult (s : State) : Bool := s.take == .always && !s.outValid

end Sys2Proof.Machine
end

