-- ==== Sys2Proof/Machine/Step.lean ====
section
/-! DEFINITION. One clock cycle and the edge that ends it (00_scope.md R15, 44_block_cipher.md R130). -/

namespace Sys2Proof.Machine

/-- The host does its half of the cycle with the outputs of the state before the edge; the edge resets the core if `rst` = 1
(70_reset_and_hazards.md R180) and otherwise runs the command on the ports (30_encoding.md R61). The one fault is the host's
(10_state.md R30). -/
def step (s : State) : Host.Outcome State Fault Refusal :=
  if s.usesNoResult then .fault .blockOutWhileInvalid
  else if s.ports.rst then .next s.hostMove.resetEdge
  else exec (decode s.ports.word) s.hostMove

/-- `s` with the command word `w` on the ports of the current cycle, `rst` = 0, so that the next step samples it. The host's other
fields stay (log 5, log 12). -/
def State.withFetchWord (s : State) (nbits w : Nat) : State :=
  { s with ports := Ports.ofWord (BitVec.ofNat 66 (w % 2 ^ nbits)) }

end Sys2Proof.Machine
end

