-- ==== Sys2Proof/Machine/Process.lean ====
section
/-! DEFINITION. `PROCESS` as the procedure of 45_file_block_processor.md R143: one sequential loop over the chunks of the input,
each transformed by `ENC` or `DEC`. Machine/Host.lean has the same procedure as the agent that drives the ports. -/

namespace Sys2Proof.Machine

/-- The loop of R143 from offset `a` on. Each pass reads a chunk, transforms it and writes four bytes; it ends when the input is
exhausted or an operation fails (60_exceptions.md R164), and closes both streams. The fuel bounds the passes: `processFuel` is
enough for the input, so that its end is never reached by running out. -/
def processLoop (T : Sbox) (c : Call) (key : Word) (mode : Mode) :
    Nat → Nat → List Byte → List StreamOp → Nat → Return
  | 0, _, out, trace, commands => ⟨.ok out, trace ++ closeOps, commands, out⟩
  | fuel + 1, a, out, trace, commands =>
    let reading := trace ++ [.read a]
    if StreamOp.read a ∈ c.failing then ⟨.error (.ioFailure (.read a)), reading ++ closeOps, commands, out⟩
    else
      match memRead c.input a with
      | [] => ⟨.ok out, reading ++ closeOps, commands, out⟩
      | b :: bs =>
        let r := cryptBlock T mode (blockOfChunk (b :: bs)) key
        let writing := reading ++ [.write a]
        if StreamOp.write a ∈ c.failing then ⟨.error (.ioFailure (.write a)), writing ++ closeOps, commands + 1, out⟩
        else processLoop T c key mode fuel (a + 4) (memWrite out r) writing (commands + 1)

/-- `ceil(L / 4)` passes and the one that finds the input exhausted (R143). -/
def processFuel (input : List Byte) : Nat := (input.length + 3) / 4 + 1

/-- `PROCESS(IN, key_value, mode_value)` (R143): boundary checks, opening the streams, the loop. -/
def process (T : Sbox) (c : Call) : Return :=
  match boundary c with
  | .error e => ⟨.error e, [], 0, []⟩
  | .ok (key, mode) =>
    match openStreams c.failing with
    | (trace, some e) => ⟨.error e, trace, 0, []⟩
    | (trace, none)   => processLoop T c key mode (processFuel c.input) 0 [] trace 0

end Sys2Proof.Machine
end

