-- ==== Sys2Proof/Safety.lean ====
section
/-! DEFINITION. What claims are stated in: runs and what a watcher of the result port sees (44_block_cipher.md R134), the results
still to come, and the invariant of the File Block Processor at the ports (45_file_block_processor.md R141, R149). -/

namespace Sys2Proof.Machine

/-! ## Runs -/

/-- `n` cycles, stopping at the first fault or refusal. -/
def steps : Nat → State → Host.Outcome State Fault Refusal
  | 0, s => .next s
  | n + 1, s =>
    match step s with
    | .next t    => steps n t
    | .fault r   => .fault r
    | .refused r => .refused r

/-- A safe cycle: the host does not use `block_out` while `out_valid` = 0 (10_state.md R30). -/
def State.safe (s : State) : Prop := s.take = .always → s.outValid = true

/-- The values on `block_out` over the cycles with `out_valid` = 1, in order, watched for `n` cycles (R134). -/
def observe : Nat → State → List Word
  | 0, _ => []
  | n + 1, s =>
    s.blockOut.toList ++
      match step s with
      | .next t              => observe n t
      | .fault _ | .refused _ => []

/-! ## What the commands of a run deliver -/

/-- The results of a sequence of input cycles, in order: a command of cycle `t` has none if `rst` = 1 in cycle `t+1` or `t+2`, or
if the sequence ends before cycle `t+3` (R134). -/
def delivered (T : Sbox) : List Ports → List Word
  | [] => []
  | p :: rest =>
    (match portCommand p, rest with
      | some c, p1 :: p2 :: _ :: _ =>
        if p1.rst = true ∨ p2.rst = true then [] else [cryptBlock T c.mode c.data c.key]
      | _, _ => []) ++ delivered T rest

/-! ## The File Block Processor at the ports -/

/-- The chunks of a stream: 4 bytes each, the last perhaps shorter (20_memory.md R43). -/
def chunks : List Byte → List (List Byte)
  | []                       => []
  | b0 :: b1 :: b2 :: b3 :: rest => [b0, b1, b2, b3] :: chunks rest
  | c                        => [c]

/-- The transform of a stream, chunk by chunk, four bytes for each (45_file_block_processor.md R143). -/
def transformBytes (T : Sbox) (mode : Mode) (key : Word) (input : List Byte) : List Byte :=
  (chunks input).flatMap fun c => bytesOfBlock (cryptBlock T mode (blockOfChunk c) key)

/-- The blocks in flight: in the stages, and on the ports of the current cycle. -/
def State.inFlight (s : State) : List Stage := s.s2.toList ++ s.s1.toList ++ (portCommand s.ports).toList

/-- The results still to come if no reset intervenes, in the order they will be presented; the first may be on the result port
already. -/
def State.pending (T : Sbox) (s : State) : List Word :=
  s.s3.toList
    ++ (s.s2.map fun st => (st.through T 2).data).toList
    ++ (s.s1.map fun st => ((st.through T 1).through T 2).data).toList
    ++ ((portCommand s.ports).map fun c => cryptBlock T c.mode c.data c.key).toList

/-- The bytes written, followed by those of the results taken, of these results still to come, and of the Blocks not yet issued, are
the transform of the input read so far. -/
def Job.covers (T : Sbox) (j : Job) (coming : List Word) : Prop :=
  j.written ++ (j.results ++ coming ++ j.queue.map fun b => cryptBlock T j.mode b j.key).flatMap bytesOfBlock
    = transformBytes T j.mode j.key (j.call.input.take j.offset)

/-- Before the first command: no command is on the ports or planned for the cycles that lead up to it, and they are enough for the
pipeline to be empty when they are over (70_reset_and_hazards.md R181). Results of an earlier run may still be presented. -/
def Job.Preparing (j : Job) (s : State) : Prop :=
  j.commands = 0 ∧ portCommand s.ports = none ∧ (∀ p ∈ j.lead, portCommand p = none) ∧ s.busy ≤ j.lead.length
  ∧ j.covers Config.sbox []

/-- While commands are issued: every block in flight carries the key and the mode of this `PROCESS` (R141), and the results still to
come are its own. -/
def Job.Issuing (j : Job) (s : State) : Prop :=
  j.lead = [] ∧ s.ports.rst = false
  ∧ (∀ st ∈ s.inFlight, st.key = j.key ∧ st.mode = j.mode)
  ∧ (s.pending Config.sbox).length = j.inFlight
  ∧ j.covers Config.sbox (s.pending Config.sbox)

/-- The invariant of a running `PROCESS`. The host looks at the result port only as the driver; the call has passed its checks;
every chunk read has been issued or is queued; every chunk read has been written as four bytes, or its result has been taken or is
in flight, or it is queued; once the driver has stopped reading because the input is exhausted, nothing is left of it; and the job
is in one of its two phases. -/
def Job.Inv (j : Job) (s : State) : Prop :=
  s.take = .ignore
  ∧ boundary j.call = .ok (j.key, j.mode)
  ∧ j.offset = 4 * (j.commands + j.queue.length)
  ∧ j.offset = j.written.length + 4 * (j.results.length + j.inFlight + j.queue.length)
  ∧ (j.feed = .exhausted → j.call.input.length ≤ j.offset)
  ∧ (j.Preparing s ∨ j.Issuing s)

/-- The invariant of the machine: what a running `PROCESS` keeps. The core has none of its own: every triple of stages is a state
(10_state.md R31). -/
def State.Inv (s : State) : Prop :=
  match s.driver with
  | .idle      => True
  | .running j => j.Inv s

end Sys2Proof.Machine
end

