-- ==== Sys2Proof/Certificates/Slice0/Obligations.lean ====
section
/-! DEFINITION. The statements for the provers, from the spec's numbered rules. A rule the spec marks as derived, or a point that a
log entry fixes, gives a statement of basis 'derived', and its docstring says so. `Config.sbox` is any bijection (log 1). -/

open Sys2Proof Sys2Proof.Machine

/-! ## Command words (30_encoding.md) -/

/-- R67, the words the spec writes out, and R64, the `NOP` word with every other bit set (95_test_vectors.md 2.8). -/
def Obligations.SpecWordsDecode : Prop :=
  decode 0x2A1B2C3D400000000 = .enc 0xA1B2C3D4 0x00000000
  ∧ decode 0x3A1B2C3D412345678 = .dec 0xA1B2C3D4 0x12345678
  ∧ decode 0x00000000000000000 = .nop
  ∧ decode 0x1FFFFFFFFFFFFFFFF = .nop

/-- R61: the three rows of the command set by the value of the word; every one of the `2^66` words is exactly one of them. -/
def Obligations.DecodeIsTotalInThreeRows : Prop :=
  ∀ w : CmdWord,
    (w.toNat < 0x20000000000000000 → decode w = .nop)
    ∧ (0x20000000000000000 ≤ w.toNat ∧ w.toNat < 0x30000000000000000 →
        decode w = .enc (BitVec.ofNat 32 (w.toNat / 2 ^ 32)) (BitVec.ofNat 32 w.toNat))
    ∧ (0x30000000000000000 ≤ w.toNat →
        decode w = .dec (BitVec.ofNat 32 (w.toNat / 2 ^ 32)) (BitVec.ofNat 32 w.toNat))

/-- R67, R68: the cycles an assembler line stands for, with the words as numbers. -/
def Obligations.AssemblerLinesGiveTheirWords : Prop :=
  (∃ p, Line.rst.cycles = [p] ∧ p.rst = true)
  ∧ (∃ p, Line.nop.cycles = [p] ∧ p.rst = false ∧ p.word.toNat = 0)
  ∧ (∀ k b : Word, ∃ p, (Line.enc k b).cycles = [p] ∧ p.rst = false
      ∧ p.word.toNat = (0x2 <<< 64) ||| (k.toNat <<< 32) ||| b.toNat)
  ∧ (∀ k b : Word, ∃ p, (Line.dec k b).cycles = [p] ∧ p.rst = false
      ∧ p.word.toNat = (0x3 <<< 64) ||| (k.toNat <<< 32) ||| b.toNat)
  ∧ Line.drain.cycles = Line.nop.cycles ++ Line.nop.cycles ++ Line.nop.cycles

/-- Decoding undoes encoding for every instruction, with every operand at every value (R61, R66, R67). -/
def Obligations.DecodeUndoesEncode : Prop :=
  ∀ i : Instr, decodeEncoding (encode i) = .ok i

/-- `NOP` apart, an instruction has one encoding: `NOP` has the `2^65` words with bit 65 = 0 (R61, R64). -/
def Obligations.EncodingsAreUniqueButForNop : Prop :=
  (∀ (e : Encoding) (i : Instr), decodeEncoding e = .ok i → i ≠ .nop → e = encode i)
  ∧ (∀ w : CmdWord, decode w = .nop ↔ w.getLsbD 65 = false)

/-- R66: a unit cannot be issued from the command port, and the three commands can. -/
def Obligations.PortIssuesExactlyTheCommands : Prop :=
  ∀ i : Instr, i.issuable = true ↔ ∃ w : CmdWord, decode w = i

/-- An encoding is admitted by the opcode-table row of the instruction it decodes to, and by no other row (R61, R66). -/
def Obligations.OpcodeRowsAreExclusive : Prop :=
  ∀ (e : Encoding) (i j : Instr), decodeEncoding e = .ok i → (j.row.admits e = true ↔ j.row = i.row)

/-! ## The step (44_block_cipher.md part 2, 10_state.md) -/

/-- A step runs the decoded command: with no reset, and unless the host uses an output that is not there, the step is `exec` of the
command on the ports, at the state after the host's half of the cycle, which leaves the core as it is (R129, R130). -/
def Obligations.StepRunsTheDecodedCommand : Prop :=
  ∀ (s : State) (i : Instr), s.safe → s.ports.rst = false → decode s.ports.word = i →
    step s = exec i s.hostMove
    ∧ s.hostMove.s1 = s.s1 ∧ s.hostMove.s2 = s.s2 ∧ s.hostMove.s3 = s.s3 ∧ s.hostMove.unitOut = s.unitOut

/-- R130: the step and the outputs, in the terms of the rule. -/
def Obligations.PipelineStepFollowsTheRule : Prop :=
  ∀ s : State,
    (s.safe → ∃ t, step s = .next t ∧
      if s.ports.rst = true then t.s1 = none ∧ t.s2 = none ∧ t.s3 = none
      else
        t.s1 = (if s.ports.inValid = 1 then
                  some ⟨Mode.ofBit s.ports.mode, s.ports.key,
                    roundUnit Config.sbox (Mode.ofBit s.ports.mode) s.ports.key 0 s.ports.blockIn⟩
                else none)
        ∧ t.s2 = (match s.s1 with
                  | some st => some ⟨st.mode, st.key, roundUnit Config.sbox st.mode st.key 1 st.data⟩
                  | none    => none)
        ∧ t.s3 = (match s.s2 with
                  | some st => some (roundUnit Config.sbox st.mode st.key 2 st.data)
                  | none    => none))
    ∧ (∀ d, s.s3 = some d → s.outValid = true ∧ s.blockOut = some d)
    ∧ (s.s3 = none → s.outValid = false ∧ s.blockOut = none)

/-- R180: a reset edge makes three bubbles whatever command word is on the ports, and in the cycle after it `out_valid` = 0. Two
cycles that differ only in the word, the mode, the key and the block lead to the same state. -/
def Obligations.ResetEdgeIgnoresTheCommand : Prop :=
  ∀ (s : State) (iv m : BitVec 1) (k b : Word), s.safe →
    ∃ t, step { s with ports := ⟨true, iv, m, k, b⟩ } = .next t
      ∧ step { s with ports := ⟨true, 0, 0, 0, 0⟩ } = .next t
      ∧ t.s1 = none ∧ t.s2 = none ∧ t.s3 = none ∧ t.outValid = false

/-- R25: each valid bit is set at an edge exactly when the one before it was 1, and all three fall at a reset edge. -/
def Obligations.ValidBitsShift : Prop :=
  ∀ s t : State, step s = .next t →
    (s.ports.rst = true → t.v1 = false ∧ t.v2 = false ∧ t.v3 = false)
    ∧ (s.ports.rst = false →
        (t.v1 = true ↔ s.ports.inValid = 1) ∧ (t.v2 = true ↔ s.v1 = true) ∧ (t.v3 = true ↔ s.v2 = true))

/-- R29, R31: the state after reset is three bubbles, with `out_valid` = 0. -/
def Obligations.ResetStateIsThreeBubbles : Prop :=
  State.reset.s1 = none ∧ State.reset.s2 = none ∧ State.reset.s3 = none
  ∧ State.reset.outValid = false ∧ State.reset.blockOut = none

/-- R161, R30: a step is never refused, and the only fault is the host's use of `block_out` in a cycle with `out_valid` = 0; in
every other state it answers a next state. -/
def Obligations.StepStopsOnlyOnHostMisuse : Prop :=
  ∀ s : State,
    (∀ r, step s ≠ .refused r)
    ∧ (∀ f, step s = .fault f ↔ f = .blockOutWhileInvalid ∧ s.take = .always ∧ s.outValid = false)
    ∧ ((∃ t, step s = .next t) ↔ s.safe)

/-- No command and no operand value makes an instruction stop (60_exceptions.md R161). With it the frame of all thirteen, which is the
model's own: an instruction leaves the host's fields alone (log 4), a command leaves the record of the units alone (log 3), and a
unit leaves the three stages alone (30_encoding.md R66: a unit has no state; that `exec` evaluates it by itself is log 3). -/
def Obligations.EveryInstructionCompletesInItsFrame : Prop :=
  ∀ (i : Instr) (s : State), ∃ t, exec i s = .next t
    ∧ t.ports = s.ports ∧ t.take = s.take ∧ t.agenda = s.agenda ∧ t.taken = s.taken ∧ t.driver = s.driver
    ∧ t.returns = s.returns
    ∧ (i.issuable = true → t.unitOut = s.unitOut)
    ∧ (i.issuable = false → t.s1 = s.s1 ∧ t.s2 = s.s2 ∧ t.s3 = s.s3)

/-! ## Tables (40_sbox_tables.md) -/

/-- R83: entry `i` of the table; nothing but the record of the unit's output changes (log 3). -/
def Obligations.SboxUnitReadsItsEntry : Prop :=
  ∀ (i : Nibble) (s : State),
    exec (.sbox i) s = .next { s with unitOut := some (.nibble Config.sbox.table[i.toNat]) }

/-- R84: the unique `v` with `SBOX[v] = i`. -/
def Obligations.SboxInvUnitFindsTheUniqueIndex : Prop :=
  ∀ (i : Nibble) (s : State), ∃ v : Nibble,
    exec (.sboxInv i) s = .next { s with unitOut := some (.nibble v) }
    ∧ ∀ u : Nibble, Config.sbox.table[u.toNat] = i ↔ u = v

/-- R82: a table is a configuration iff it is a bijection of `{0..15}`, and any other is refused. -/
def Obligations.ConfigurationsAreTheBijections : Prop :=
  ∀ t : Table,
    (Function.Bijective (fun i : Nibble => t[i.toNat]) → ∃ T, configure t = .ok T ∧ T.table = t)
    ∧ (¬ Function.Bijective (fun i : Nibble => t[i.toNat]) → configure t = .error .sboxNotBijective)

/-- Every well-formed configuration is the table of a permutation, so that what is proved of `Config.sbox` is proved of any
bijection (R9; the form of the parameter is the model's, log 1). -/
def Obligations.EveryConfigurationIsAPermutationTable : Prop :=
  ∀ T : Sbox, ∃ e : Equiv.Perm Nibble, T = Sbox.ofPerm e ∧ ∀ i, sboxRead T i = e i ∧ sboxInvRead T i = e.symm i

/-! ## Rotation and key schedule (41_key_schedule.md) -/

/-- R90: bit `i` moves to place `(i + n) mod 32`, for every natural amount; a multiple of 32 leaves the word unchanged. -/
def Obligations.RotateLeftMovesEveryBit : Prop :=
  ∀ (x : Word) (n : Nat) (s : State), ∃ y : Word,
    exec (.rotl32 x n) s = .next { s with unitOut := some (.word y) }
    ∧ (∀ i, i < 32 → y.getLsbD ((i + n) % 32) = x.getLsbD i)
    ∧ (n % 32 = 0 → y = x)

/-- R91: bit `i` comes from place `(i + n) mod 32`. -/
def Obligations.RotateRightMovesEveryBit : Prop :=
  ∀ (x : Word) (n : Nat) (s : State), ∃ y : Word,
    exec (.rotr32 x n) s = .next { s with unitOut := some (.word y) }
    ∧ (∀ i, i < 32 → y.getLsbD i = x.getLsbD ((i + n) % 32))
    ∧ (n % 32 = 0 → y = x)

/-- The laws of rotation (41_key_schedule.md section 1, "Laws of rotation", R96, which the spec derives from R90 and R91). -/
def Obligations.RotationLaws : Prop :=
  ∀ (x y : Word) (a b : Nat),
    rotr32 (rotl32 x a) a = x ∧ rotl32 (rotr32 x a) a = x
    ∧ rotl32 x a = rotr32 x ((32 - a % 32) % 32)
    ∧ rotl32 (rotl32 x a) b = rotl32 x (a + b) ∧ rotl32 x (a + b) = rotl32 x ((a + b) % 32)
    ∧ rotl32 (x ^^^ y) a = rotl32 x a ^^^ rotl32 y a

/-- R92: the three subkeys, each by its slices of the key, in the order of the round index; they are all equal only for the two
constant keys. -/
def Obligations.KeyScheduleGivesTheRotatedKeys : Prop :=
  ∀ (key : Word) (s : State), ∃ k0 k1 k2 : Word,
    exec (.keysched key) s = .next { s with unitOut := some (.subkeys k0 k1 k2) }
    ∧ k0 = key
    ∧ k1 = key.extractLsb' 0 27 ++ key.extractLsb' 27 5
    ∧ k2 = key.extractLsb' 0 22 ++ key.extractLsb' 22 10
    ∧ k0 = rotl32 key (5 * 0) ∧ k1 = rotl32 key (5 * 1) ∧ k2 = rotl32 key (5 * 2)
    ∧ (k0 = k1 ∧ k1 = k2 ↔ key = 0 ∨ key = 0xFFFFFFFF)

/-! ## The layers (42_substitution_layer.md, 43_permutation_layer.md) -/

/-- R100, R102: lane `p` of `SUB` is the entry at the block nibble mixed with the key nibble. -/
def Obligations.SubstitutionMixesBeforeTheLookup : Prop :=
  ∀ (block sk : Word) (s : State), ∃ y : Word,
    exec (.sub block sk) s = .next { s with unitOut := some (.word y) }
    ∧ ∀ p : Fin 8,
        y.extractLsb' (4 * p.val) 4
          = Config.sbox.table[(block.extractLsb' (4 * p.val) 4 ^^^ sk.extractLsb' (4 * p.val) 4 : Nibble).toNat]

/-- R101: lane `p` of `SUBINV` mixed with the key nibble is the index whose entry is the block nibble. -/
def Obligations.InverseSubstitutionMixesAfterTheLookup : Prop :=
  ∀ (block sk : Word) (s : State), ∃ y : Word,
    exec (.subinv block sk) s = .next { s with unitOut := some (.word y) }
    ∧ ∀ p : Fin 8,
        Config.sbox.table[(y.extractLsb' (4 * p.val) 4 ^^^ sk.extractLsb' (4 * p.val) 4 : Nibble).toNat]
          = block.extractLsb' (4 * p.val) 4

/-- R103: round trip of the substitution layer, both orders, and for a fixed subkey a bijection; for every table. -/
def Obligations.SubstitutionRoundTrip : Prop :=
  ∀ (T : Sbox) (K : Word),
    (∀ B, subInvUnit T (subUnit T B K) K = B) ∧ (∀ B, subUnit T (subInvUnit T B K) K = B)
    ∧ Function.Bijective (fun B => subUnit T B K)

/-- The whole-word form of the layer (42_substitution_layer.md, "Whole-word form", which the spec derives from R100 and R101). -/
def Obligations.SubstitutionWholeWordForm : Prop :=
  ∀ (T : Sbox) (B K : Word),
    subUnit T B K = subUnit T (B ^^^ K) 0 ∧ subInvUnit T B K = subInvUnit T B 0 ^^^ K

/-- R111: `PERM` moves bit `i` to place `(i + rot) mod 32`, `rot` the low five bits of the subkey; 0 leaves the block unchanged. -/
def Obligations.PermutationRotatesBySubkeyBits : Prop :=
  ∀ (block sk : Word) (s : State), ∃ y : Word,
    exec (.perm block sk) s = .next { s with unitOut := some (.word y) }
    ∧ (∀ i, i < 32 → y.getLsbD ((i + (sk.extractLsb' 0 5).toNat) % 32) = block.getLsbD i)
    ∧ (sk.extractLsb' 0 5 = 0 → y = block)

/-- R112: `PERMINV` rotates the other way by the same amount. -/
def Obligations.InversePermutationRotatesBack : Prop :=
  ∀ (block sk : Word) (s : State), ∃ y : Word,
    exec (.perminv block sk) s = .next { s with unitOut := some (.word y) }
    ∧ (∀ i, i < 32 → y.getLsbD i = block.getLsbD ((i + (sk.extractLsb' 0 5).toNat) % 32))
    ∧ (sk.extractLsb' 0 5 = 0 → y = block)

/-- R113: round trip of the permutation layer, both orders, every rotation amount (0 included), and for a fixed subkey a
bijection. -/
def Obligations.PermutationRoundTrip : Prop :=
  ∀ K : Word,
    (∀ B, permInvUnit (permUnit B K) K = B) ∧ (∀ B, permUnit (permInvUnit B K) K = B)
    ∧ Function.Bijective (fun B => permUnit B K)

/-! ## The cipher (44_block_cipher.md part 1) -/

/-- R120, and the round index of 44_block_cipher.md rule R121, which the spec derives from R120 and R92: the round at stage
position `s`, by the layers. -/
def Obligations.RoundUnitAppliesItsLayers : Prop :=
  ∀ (key d : Word) (position : Fin 3) (s : State),
    (∀ sk, sk = rotl32 key (5 * position.val) →
      exec (.round .encrypt key position d) s
        = .next { s with unitOut := some (.word (permUnit (subUnit Config.sbox d sk) sk)) })
    ∧ (∀ sk, sk = rotl32 key (5 * (2 - position.val)) →
      exec (.round .decrypt key position d) s
        = .next { s with unitOut := some (.word (subInvUnit Config.sbox (permInvUnit d sk) sk)) })

/-- The decrypt round at position `2 - s` undoes the encrypt round at position `s`, and the other way about
(44_block_cipher.md part 1: for every `b` and `sk`, derived by the spec from R103 and R113). -/
def Obligations.RoundsUndoEachOther : Prop :=
  ∀ (T : Sbox) (key d : Word) (position : Fin 3),
    roundUnit T .decrypt key (2 - position) (roundUnit T .encrypt key position d) = d
    ∧ roundUnit T .encrypt key position (roundUnit T .decrypt key (2 - position) d) = d

/-- R124 with the advance of R130: `NOP` makes stage 1 a bubble, the other stages advance, nothing else changes, and no result is
ever presented for it: two edges later, whatever commands follow, `out_valid` = 0. -/
def Obligations.NopLeavesABubble : Prop :=
  ∀ (s : State) (w1 w2 : CmdWord), ∃ t u v : State,
    exec .nop s = .next t
    ∧ t = { s with
            s1 := none
            s2 := s.s1.map fun st => ⟨st.mode, st.key, roundUnit Config.sbox st.mode st.key 1 st.data⟩
            s3 := s.s2.map fun st => roundUnit Config.sbox st.mode st.key 2 st.data }
    ∧ exec (decode w1) t = .next u ∧ exec (decode w2) u = .next v
    ∧ v.outValid = false ∧ v.blockOut = none

/-- R122: `ENC` enters stage 1 with its first round done, the other stages advance, and two edges later, whatever commands follow,
stage 3 holds substitution then permutation by the three subkeys in the order 0, 1, 2. -/
def Obligations.EncryptRunsRoundsInOrder : Prop :=
  ∀ (key block : Word) (s : State) (w1 w2 : CmdWord),
    let sk0 := key
    let sk1 := rotl32 key 5
    let sk2 := rotl32 key 10
    let b1 := permUnit (subUnit Config.sbox block sk0) sk0
    let b2 := permUnit (subUnit Config.sbox b1 sk1) sk1
    let b3 := permUnit (subUnit Config.sbox b2 sk2) sk2
    ∃ t u v : State,
      exec (.enc key block) s = .next t
      ∧ t = { s with
              s1 := some ⟨.encrypt, key, b1⟩
              s2 := s.s1.map fun st => ⟨st.mode, st.key, roundUnit Config.sbox st.mode st.key 1 st.data⟩
              s3 := s.s2.map fun st => roundUnit Config.sbox st.mode st.key 2 st.data }
      ∧ exec (decode w1) t = .next u ∧ exec (decode w2) u = .next v
      ∧ v.outValid = true ∧ v.blockOut = some b3
      ∧ encBlock Config.sbox block key = b3

/-- R123: `DEC` enters stage 1 with its first round done, the other stages advance, and two edges later, whatever commands follow,
stage 3 holds inverse permutation then inverse substitution by the subkeys in the order 2, 1, 0. -/
def Obligations.DecryptRunsRoundsInReverse : Prop :=
  ∀ (key block : Word) (s : State) (w1 w2 : CmdWord),
    let sk0 := key
    let sk1 := rotl32 key 5
    let sk2 := rotl32 key 10
    let b1 := subInvUnit Config.sbox (permInvUnit block sk2) sk2
    let b2 := subInvUnit Config.sbox (permInvUnit b1 sk1) sk1
    let b3 := subInvUnit Config.sbox (permInvUnit b2 sk0) sk0
    ∃ t u v : State,
      exec (.dec key block) s = .next t
      ∧ t = { s with
              s1 := some ⟨.decrypt, key, b1⟩
              s2 := s.s1.map fun st => ⟨st.mode, st.key, roundUnit Config.sbox st.mode st.key 1 st.data⟩
              s3 := s.s2.map fun st => roundUnit Config.sbox st.mode st.key 2 st.data }
      ∧ exec (decode w1) t = .next u ∧ exec (decode w2) u = .next v
      ∧ v.outValid = true ∧ v.blockOut = some b3
      ∧ decBlock Config.sbox block key = b3

/-- R128: the cipher round trip, both orders, so that for each key `ENC` and `DEC` are inverse bijections; for every table. -/
def Obligations.CipherRoundTrip : Prop :=
  ∀ (T : Sbox) (K : Word),
    (∀ B, decBlock T (encBlock T B K) K = B) ∧ (∀ B, encBlock T (decBlock T B K) K = B)
    ∧ Function.Bijective (fun B => encBlock T B K) ∧ Function.Bijective (fun B => decBlock T B K)

/-- The corner case of R122 and R123: with key 0 each nibble passes the bare table three times. -/
def Obligations.KeyZeroIsThreeBareLookups : Prop :=
  ∀ (T : Sbox) (B : Word) (p : Fin 8),
    nib (encBlock T B 0) p = sboxRead T (sboxRead T (sboxRead T (nib B p)))
    ∧ nib (decBlock T B 0) p = sboxInvRead T (sboxInvRead T (sboxInvRead T (nib B p)))

/-! ## The pipeline (44_block_cipher.md part 2) -/

/-- A command in cycle `t` with no reset in `t`, `t+1`, `t+2` has its result on the ports in cycle `t+3`, whatever the state was and
whatever the other cycles hold (44_block_cipher.md part 2, "The pipeline computes part 1", which the spec derives from R130). -/
def Obligations.ResultAppearsThreeCyclesLater : Prop :=
  ∀ s0 s1 s2 s3 : State, step s0 = .next s1 → step s1 = .next s2 → step s2 = .next s3 →
    s0.ports.rst = false → s1.ports.rst = false → s2.ports.rst = false → s0.ports.inValid = 1 →
    s3.outValid = true
    ∧ (s0.ports.mode = 0 → s3.blockOut = some (encBlock Config.sbox s0.ports.blockIn s0.ports.key))
    ∧ (s0.ports.mode = 1 → s3.blockOut = some (decBlock Config.sbox s0.ports.blockIn s0.ports.key))

/-- R182: a command presented in cycle `t` is discarded exactly when `rst` = 1 in one of the cycles `t`, `t+1`, `t+2`; and
`out_valid` = 1 in cycle `t+3` only for a command of cycle `t`. A result in stage 3 is on the ports in a reset cycle as in any other
and gone in the next, when all three valid bits are 0. -/
def Obligations.ResetDiscardsCommandsInFlight : Prop :=
  (∀ s0 s1 s2 s3 : State, step s0 = .next s1 → step s1 = .next s2 → step s2 = .next s3 →
    (s3.outValid = true ↔
      s0.ports.inValid = 1 ∧ s0.ports.rst = false ∧ s1.ports.rst = false ∧ s2.ports.rst = false))
  ∧ (∀ (s : State) (d : Word) (r : Bool), s.s3 = some d → { s with ports.rst := r }.outValid = true ∧ { s with ports.rst := r }.blockOut = some d)
  ∧ (∀ s t : State, step s = .next t → s.ports.rst = true →
      t.v1 = false ∧ t.v2 = false ∧ t.v3 = false ∧ t.outValid = false)

/-- The result of a command depends on that command alone (10_state.md rule R28, which the spec derives from R130): two machines in
any two states that are given the same command, and no reset, present the same result. -/
def Obligations.ResultDependsOnItsCommandAlone : Prop :=
  ∀ s0 s1 s2 s3 t0 t1 t2 t3 : State,
    step s0 = .next s1 → step s1 = .next s2 → step s2 = .next s3 →
    step t0 = .next t1 → step t1 = .next t2 → step t2 = .next t3 →
    s0.ports = t0.ports →
    s1.ports.rst = false → s2.ports.rst = false → t1.ports.rst = false → t2.ports.rst = false →
    s3.outValid = t3.outValid ∧ s3.blockOut = t3.blockOut

/-- After three cycles with `rst` = 0 and `in_valid` = 0 the pipeline is empty (44_block_cipher.md, "Drain and the end of a run",
which the spec derives from R130). -/
def Obligations.DrainEmptiesThePipeline : Prop :=
  ∀ s0 s1 s2 s3 : State, step s0 = .next s1 → step s1 = .next s2 → step s2 = .next s3 →
    s0.ports.rst = false → s1.ports.rst = false → s2.ports.rst = false →
    s0.ports.inValid = 0 → s1.ports.inValid = 0 → s2.ports.inValid = 0 →
    s3.s1 = none ∧ s3.s2 = none ∧ s3.s3 = none

/-- The observation a model can be held to (44_block_cipher.md, the last rule of part 2, which the spec derives from R130): for
every finite sequence of input cycles that begins with a reset, from any state, the values presented are the results of the
commands in order, but for those a reset or the end of the sequence cuts off. Order of results (20_memory.md R48) is part of it. -/
def Obligations.RunDeliversResultsInCommandOrder : Prop :=
  ∀ (s : State) (ps : List Ports), s.driver = .idle → s.take = .ignore → s.ports.rst = true →
    s.agenda = ps.map (fun p => .cycle p .ignore) →
    ∃ t, step s = .next t ∧ observe ps.length t = delivered Config.sbox ps

/-! ## The host at the ports (45_file_block_processor.md, 70_reset_and_hazards.md) -/

/-- The host's half of a cycle outside a `PROCESS` (R150, in the model's form, log 4): its next cycle is the next item of its agenda,
and an idle cycle when nothing is left. -/
def Obligations.HostPlaysItsAgenda : Prop :=
  ∀ s : State, s.driver = .idle → s.safe →
    (∀ p k rest, s.agenda = .cycle p k :: rest →
      ∃ t, step s = .next t ∧ t.ports = p ∧ t.take = k ∧ t.agenda = rest ∧ t.driver = .idle ∧ t.returns = s.returns)
    ∧ (s.agenda = [] →
      ∃ t, step s = .next t ∧ t.ports.inValid = 0 ∧ t.ports.rst = false ∧ t.take = .ignore ∧ t.agenda = []
        ∧ t.driver = .idle ∧ t.returns = s.returns)

/-- R186: the host has a result only if it takes it in the cycle it is presented, and the next edge replaces it: the state after
the edge does not depend on the result that was there, but for what the host took. -/
def Obligations.ResultMustBeTakenInItsCycle : Prop :=
  ∀ s t : State, step s = .next t →
    (s.take = .ignore → t.taken = s.taken)
    ∧ (s.take ≠ .ignore → t.taken = s.taken ++ s.blockOut.toList)
    ∧ (∀ d, s.take = .ignore → s.driver = .idle → step { s with s3 := d } = .next t)

/-- R162: a key value outside `0 .. 0xFFFFFFFF`, and no other, ends the `PROCESS` with `InvalidKey`, before any I/O and before any
command, whatever the mode and the streams are. -/
def Obligations.InvalidKeyBeforeAnything : Prop :=
  ∀ (s : State) (c : Call) (rest : List Action), s.driver = .idle → s.safe → s.agenda = .process c :: rest →
    (¬ (0 ≤ c.keyValue ∧ c.keyValue ≤ 0xFFFFFFFF) →
      ∃ t, step s = .next t ∧ t.returns = s.returns ++ [⟨.error (.invalidKey c.keyValue), [], 0, []⟩]
        ∧ t.driver = .idle ∧ t.agenda = rest ∧ t.ports.inValid = 0 ∧ t.ports.rst = false)
    ∧ ((∃ v, (process Config.sbox c).result = .error (.invalidKey v)) ↔ ¬ (0 ≤ c.keyValue ∧ c.keyValue ≤ 0xFFFFFFFF))
    ∧ (∀ v, (process Config.sbox c).result = .error (.invalidKey v) → v = c.keyValue)

/-- R163: a mode value that is neither member, and no other, ends the `PROCESS` with `InvalidMode`: no stream is opened, no byte read
or written, no command issued. The key is in range here; with a bad key as well the error is `InvalidKey` (R167, D13). -/
def Obligations.InvalidModeBeforeAnything : Prop :=
  ∀ (s : State) (c : Call) (rest : List Action), s.driver = .idle → s.safe → s.agenda = .process c :: rest →
    (0 ≤ c.keyValue ∧ c.keyValue ≤ 0xFFFFFFFF) →
    (c.modeValue ≠ "encrypt" → c.modeValue ≠ "decrypt" →
      ∃ t, step s = .next t ∧ t.returns = s.returns ++ [⟨.error (.invalidMode c.modeValue), [], 0, []⟩]
        ∧ t.driver = .idle ∧ t.agenda = rest ∧ t.ports.inValid = 0 ∧ t.ports.rst = false)
    ∧ ((∃ v, (process Config.sbox c).result = .error (.invalidMode v)) ↔
        c.modeValue ≠ "encrypt" ∧ c.modeValue ≠ "decrypt")
    ∧ (∀ v, (process Config.sbox c).result = .error (.invalidMode v) → v = c.modeValue)

/-- R168: an error ends the current `PROCESS` and returns its kind to the caller; the core's own state is not changed. -/
def Obligations.ErrorEndsTheProcessAndLeavesTheCore : Prop :=
  ∀ (s : State) (e : HostError) (trace : List StreamOp) (n : Nat) (written : List Byte),
    let t := s.raiseError e trace n written
    t.driver = .idle ∧ t.returns = s.returns ++ [⟨.error e, trace, n, written⟩]
    ∧ t.s1 = s.s1 ∧ t.s2 = s.s2 ∧ t.s3 = s.s3 ∧ t.unitOut = s.unitOut ∧ t.agenda = s.agenda ∧ t.taken = s.taken
    ∧ t.ports.inValid = 0 ∧ t.ports.rst = false

/-- R149 with 70_reset_and_hazards.md R181: a call that passes its checks and opens its streams runs with its key and mode, with
nothing read, issued or written yet. If it says to reset, the next cycle and as many more as it says have `rst` = 1; if it says to
drain, the next cycle and those that lead up to the first command hold neither a command nor a reset. That these cycles start in
the cycle after the call, and how many of them there are to drain, is the model's choice (log 15). -/
def Obligations.AcceptedProcessPreparesTheCoreFirst : Prop :=
  ∀ (s : State) (c : Call) (rest : List Action), s.driver = .idle → s.safe → s.agenda = .process c :: rest →
    (0 ≤ c.keyValue ∧ c.keyValue ≤ 0xFFFFFFFF) → (c.modeValue = "encrypt" ∨ c.modeValue = "decrypt") →
    StreamOp.openInput ∉ c.failing → StreamOp.openOutput ∉ c.failing →
    ∃ t j, step s = .next t ∧ t.driver = .running j ∧ t.agenda = rest ∧ t.returns = s.returns
      ∧ j.call = c ∧ (j.key.toNat : Int) = c.keyValue ∧ (j.mode = .encrypt ↔ c.modeValue = "encrypt")
      ∧ j.offset = 0 ∧ j.queue = [] ∧ j.inFlight = 0 ∧ j.results = [] ∧ j.written = [] ∧ j.commands = 0
      ∧ (∀ n, c.prepare = .reset n → t.ports.rst = true ∧ j.lead.length = n ∧ ∀ p ∈ j.lead, p.rst = true)
      ∧ (c.prepare = .drain →
          t.ports.rst = false ∧ t.ports.inValid = 0 ∧ ∀ p ∈ j.lead, p.rst = false ∧ p.inValid = 0)

/-- The invariant of a running `PROCESS` at the ports (R141, R143, R149; `Job.Inv` is the model's, logs 4, 8 and 15): every step from a
state that has it, with whatever the agenda holds, leads to a state that has it. -/
def Obligations.EveryStepKeepsTheDriverInvariant : Prop :=
  ∀ s t : State, s.Inv → step s = .next t → t.Inv

/-- The state after reset has the invariant, because the host is at rest in it. That is the model's choice (log 2, DESIGN CHOICE):
10_state.md R29 gives reset values for the core alone. -/
def Obligations.ResetHasTheDriverInvariant : Prop := State.reset.Inv

/-- Driving the ports as R149 says gives what the procedure R143 gives, however the pipeline is made empty first (log 15), for every
spacing of commands, reads and writes, issued ahead or one at a time (R147, R150; log 8), and for every pattern of failing stream
operations (R164; log 7): every call ends, and returns the same result and the same complete blocks written (log 11). -/
def Obligations.ProcessAtThePortsIsTheProcedure : Prop :=
  ∀ (s : State) (c : Call) (rest : List Action), s.driver = .idle → s.safe → s.agenda = .process c :: rest →
    ∃ n t r, steps n s = .next t ∧ t.driver = .idle ∧ t.agenda = rest ∧ t.returns = s.returns ++ [r]
      ∧ r.result = (process Config.sbox c).result ∧ r.written = (process Config.sbox c).written

/-! ## Streams and `PROCESS` (20_memory.md, 45_file_block_processor.md) -/

/-- R45: `MemRead(a, 4)` gives the bytes at offsets `a .. min(a+4, L) - 1`, and nothing once the stream is exhausted. -/
def Obligations.MemReadGivesUpToFourBytes : Prop :=
  ∀ (input : List Byte) (a : Nat),
    (memRead input a).length = min (a + 4) input.length - a
    ∧ (∀ i, i < 4 → (memRead input a)[i]? = input[a + i]?)
    ∧ (memRead input a = [] ↔ input.length ≤ a)

/-- R41, R46: a Block and its four bytes, most significant at the lowest offset, in both directions. -/
def Obligations.BytesAndBlocksAreBigEndian : Prop :=
  (∀ b0 b1 b2 b3 : Byte,
    (blockOfChunk [b0, b1, b2, b3]).toNat = b0.toNat * 2 ^ 24 + b1.toNat * 2 ^ 16 + b2.toNat * 2 ^ 8 + b3.toNat)
  ∧ (∀ (out : List Byte) (v : Word), ∃ b0 b1 b2 b3 : Byte,
      memWrite out v = out ++ [b0, b1, b2, b3]
      ∧ v.toNat = b0.toNat * 2 ^ 24 + b1.toNat * 2 ^ 16 + b2.toNat * 2 ^ 8 + b3.toNat)

/-- R144: the Block of a short last chunk, zero-padded at the least significant end. -/
def Obligations.ShortChunkIsPaddedOnTheRight : Prop :=
  ∀ x y z : Byte,
    (blockOfChunk [x]).toNat = x.toNat <<< 24
    ∧ (blockOfChunk [x, y]).toNat = (x.toNat <<< 24) ||| (y.toNat <<< 16)
    ∧ (blockOfChunk [x, y, z]).toNat = (x.toNat <<< 24) ||| (y.toNat <<< 16) ||| (z.toNat <<< 8)

/-- R143, R145: without a failing operation `PROCESS` returns the transform of the input chunk by chunk, `ceil(L / 4) * 4` bytes, and
issues one command for each chunk. -/
def Obligations.ProcessTransformsEveryChunk : Prop :=
  ∀ (T : Sbox) (c : Call) (key : Word) (mode : Mode), boundary c = .ok (key, mode) → c.failing = [] →
    ∃ out, (process T c).result = .ok out
      ∧ out = transformBytes T mode key c.input
      ∧ out.length = (c.input.length + 3) / 4 * 4
      ∧ (process T c).commands = (c.input.length + 3) / 4

/-- The padding is lossy (45_file_block_processor.md R146, derived there from R143, R144 and R128): decrypting what was encrypted gives
the input followed by `(4 - L mod 4) mod 4` zero bytes. -/
def Obligations.DecryptedStreamIsThePaddedInput : Prop :=
  ∀ (T : Sbox) (c : Call), c.failing = [] → (0 ≤ c.keyValue ∧ c.keyValue ≤ 0xFFFFFFFF) → c.modeValue = "encrypt" →
    ∃ out, (process T c).result = .ok out
      ∧ (process T { c with input := out, modeValue := "decrypt" }).result
          = .ok (c.input ++ List.replicate ((4 - c.input.length % 4) % 4) 0)

/-- The first failing operation in stream order ends the `PROCESS` with `IOFailure` (60_exceptions.md R164, R167); at chunk `n` exactly
`n` complete blocks have been written, no later chunk has been touched, and the open streams are closed (R168,
45_file_block_processor.md R148). That the input is opened first, so that it alone was tried when it cannot be opened and is closed
when the output cannot be opened, is the model's (log 10), and so is that a failed write leaves nothing in the complete blocks
(log 11). -/
def Obligations.FirstFailureEndsTheProcess : Prop :=
  ∀ (T : Sbox) (c : Call) (key : Word) (mode : Mode), boundary c = .ok (key, mode) →
    (StreamOp.openInput ∈ c.failing → process T c = ⟨.error (.ioFailure .openInput), [.openInput], 0, []⟩)
    ∧ (StreamOp.openInput ∉ c.failing → StreamOp.openOutput ∈ c.failing →
        (process T c).result = .error (.ioFailure .openOutput) ∧ (process T c).commands = 0
        ∧ (process T c).written = [] ∧ StreamOp.closeInput ∈ (process T c).trace)
    ∧ (StreamOp.openInput ∉ c.failing → StreamOp.openOutput ∉ c.failing →
        ∀ n, (∀ m, m < n → StreamOp.read (4 * m) ∉ c.failing ∧ StreamOp.write (4 * m) ∉ c.failing) →
          (n ≤ (c.input.length + 3) / 4 → StreamOp.read (4 * n) ∈ c.failing →
            (process T c).result = .error (.ioFailure (.read (4 * n)))
            ∧ (process T c).written.length = 4 * n ∧ (process T c).commands = n
            ∧ StreamOp.closeInput ∈ (process T c).trace ∧ StreamOp.closeOutput ∈ (process T c).trace
            ∧ ∀ m, n < m → StreamOp.read (4 * m) ∉ (process T c).trace)
          ∧ (n < (c.input.length + 3) / 4 → StreamOp.read (4 * n) ∉ c.failing → StreamOp.write (4 * n) ∈ c.failing →
            (process T c).result = .error (.ioFailure (.write (4 * n)))
            ∧ (process T c).written.length = 4 * n ∧ (process T c).commands = n + 1
            ∧ StreamOp.closeInput ∈ (process T c).trace ∧ StreamOp.closeOutput ∈ (process T c).trace
            ∧ ∀ m, n < m → StreamOp.read (4 * m) ∉ (process T c).trace))

/-- A failing close changes nothing of the outcome already decided (60_exceptions.md R169, D16, as the model reads it, log 9), and
both streams, once open, are closed at the end of every `PROCESS` (R148, in the order of log 10). -/
def Obligations.CloseChangesNothingAndHappensAlways : Prop :=
  ∀ (T : Sbox) (c : Call),
    process T { c with failing := c.failing ++ [.closeInput, .closeOutput] } = process T c
    ∧ (StreamOp.openInput ∈ (process T c).trace → StreamOp.openInput ∉ c.failing →
        StreamOp.closeInput ∈ (process T c).trace)
    ∧ (StreamOp.openOutput ∈ (process T c).trace → StreamOp.openOutput ∉ c.failing →
        StreamOp.closeOutput ∈ (process T c).trace)

/-! ## The first command of a `PROCESS` (70_reset_and_hazards.md) -/

/-- 70_reset_and_hazards.md R181 (3), 60_exceptions.md R168: when a `PROCESS` presents its first command the pipeline is empty, just
reset or drained, so that no result of an earlier run is taken for one of its own. It rests on the invariant of the driver (log 4)
and on the cycles of log 15. -/
def Obligations.FirstCommandFindsThePipelineEmpty : Prop :=
  ∀ (s t : State) (j j' : Job), s.Inv → s.driver = .running j → step s = .next t → t.driver = .running j' →
    j.commands = 0 → j'.commands ≠ 0 →
    t.s1 = none ∧ t.s2 = none ∧ t.s3 = none
    ∧ t.ports.rst = false ∧ t.ports.inValid = 1 ∧ t.ports.key = j.key ∧ t.ports.mode = j.mode.bit
    ∧ j'.inFlight = 1 ∧ j'.results = [] ∧ j'.written = []
end

