-- ==== Sys2Proof/Laws/Ops.lean ====
section
/-! SUPPORT. What the shared operations of the transform give: lanes, table lookups, rotations by single bits, the layers lane by
lane, and the operations on the host's streams. -/

namespace Sys2Proof.Machine

/-! ## Lanes (00_scope.md R13) -/

@[simp] theorem nib_join (n : Fin 8 → Nibble) (p : Fin 8) : nib (join n) p = n p := by
  unfold nib join
  fin_cases p <;> ext i hi <;> simp [BitVec.getElem_extractLsb'] <;> grind

/-- A bit of a word is a bit of one of its nibbles. -/
theorem getLsbD_eq_nib (v : Word) (i : Nat) (hi : i < 32) :
    v.getLsbD i = (nib v ⟨i / 4, by omega⟩).getLsbD (i % 4) := by
  have h : i % 4 < 4 := Nat.mod_lt _ (by decide)
  have e : 4 * (i / 4) + i % 4 = i := by omega
  simp [nib, h, e]

/-- A word is determined by its eight nibbles. -/
theorem word_ext_nib {v w : Word} (h : ∀ p, nib v p = nib w p) : v = w := by
  refine BitVec.eq_of_getLsbD_eq fun i hi => ?_
  rw [getLsbD_eq_nib v i hi, getLsbD_eq_nib w i hi, h]

@[simp] theorem nib_xor (v w : Word) (p : Fin 8) : nib (v ^^^ w) p = nib v p ^^^ nib w p := by
  simp only [nib]
  ext i hi
  simp [BitVec.getElem_extractLsb']

/-! ## The lookup tables (40_sbox_tables.md R81 to R84) -/

/-- Every value is an entry (R82). -/
theorem sboxRead_surjective (T : Sbox) : Function.Surjective (sboxRead T) := by
  intro v
  have hm : v ∈ T.table.toList := List.count_pos_iff.mp (by rw [T.wf v]; decide)
  obtain ⟨i, hi, h⟩ := List.getElem_of_mem hm
  have hi' : i < 16 := by simpa using hi
  have hb : (BitVec.ofNat 4 i).toNat = i := by simp; omega
  refine ⟨BitVec.ofNat 4 i, ?_⟩
  simpa [sboxRead, hb] using h

/-- No value is an entry twice (R82). -/
theorem sboxRead_injective (T : Sbox) : Function.Injective (sboxRead T) :=
  Finite.injective_iff_surjective.mpr (sboxRead_surjective T)

/-- The inverse lookup finds the one index whose entry is `i` (R84). -/
theorem sboxInvRead_eq_iff (T : Sbox) (i v : Nibble) : sboxInvRead T i = v ↔ sboxRead T v = i := by
  obtain ⟨u, hu⟩ := sboxRead_surjective T i
  have hmem : u ∈ (List.range 16).map (BitVec.ofNat 4) :=
    List.mem_map.mpr ⟨u.toNat, List.mem_range.mpr u.isLt, by simp⟩
  have hfind : ((List.range 16).map (BitVec.ofNat 4)).find? (fun v => sboxRead T v == i) = some u := by
    cases hf : ((List.range 16).map (BitVec.ofNat 4)).find? (fun v => sboxRead T v == i) with
    | none => exact absurd hu (by simpa using List.find?_eq_none.mp hf u hmem)
    | some x =>
      have hx : sboxRead T x = i := by simpa using List.find?_some hf
      rw [sboxRead_injective T (hx.trans hu.symm)]
  rw [sboxInvRead, hfind]
  constructor
  · rintro rfl; exact hu
  · intro h; exact sboxRead_injective T (hu.trans h.symm)

/-! ## Rotation (41_key_schedule.md R90, R91) -/

/-- Bit `i` of a rotation left comes from `n mod 32` places below, round the word (R90, bit form). -/
theorem getLsbD_rotl32 (x : Word) (n i : Nat) (hi : i < 32) :
    (rotl32 x n).getLsbD i = x.getLsbD ((i + (32 - n % 32)) % 32) := by
  unfold rotl32
  have hn : n % 32 < 32 := Nat.mod_lt _ (by decide)
  generalize n % 32 = m at hn ⊢
  by_cases h0 : m = 0
  · simp [h0, Nat.mod_eq_of_lt hi]
  · by_cases hlt : i < m
    · have e : (i + (32 - m)) % 32 = 32 - m + i := by omega
      simp [h0, hi, hlt, e]
    · have e : (i + (32 - m)) % 32 = i - m := by omega
      have z : x.getLsbD (32 - m + i) = false := BitVec.getLsbD_of_ge _ _ (by omega)
      simp [h0, hi, hlt, e, z, BitVec.getLsbD_eq_getElem (show i - m < 32 by omega)]

/-- Bit `i` of a rotation right comes from `n mod 32` places above, round the word (R91, bit form). -/
theorem getLsbD_rotr32 (x : Word) (n i : Nat) (hi : i < 32) :
    (rotr32 x n).getLsbD i = x.getLsbD ((i + n % 32) % 32) := by
  unfold rotr32
  have hn : n % 32 < 32 := Nat.mod_lt _ (by decide)
  generalize n % 32 = m at hn ⊢
  by_cases h0 : m = 0
  · simp [h0, Nat.mod_eq_of_lt hi]
  · by_cases hlt : i < 32 - m
    · have e : (i + m) % 32 = m + i := by omega
      simp [h0, hi, hlt, e]
    · have e : (i + m) % 32 = i - (32 - m) := by omega
      have z : x.getLsbD (m + i) = false := BitVec.getLsbD_of_ge _ _ (by omega)
      simp [h0, hi, hlt, e, z, BitVec.getLsbD_eq_getElem (show i - (32 - m) < 32 by omega)]

/-- The rotation amount is the low five bits of the subkey (43_permutation_layer.md R110). -/
theorem rotAmount_eq (k : Word) : rotAmount k = k.toNat % 32 := by
  have h : (0x1F : Nat) = 2 ^ 5 - 1 := by decide
  rw [rotAmount, BitVec.toNat_and, show (0x1F : Word).toNat = 0x1F from rfl, h, Nat.and_two_pow_sub_one_eq_mod]

/-! ## The substitution layer, lane by lane (42_substitution_layer.md R100, R101) -/

@[simp] theorem nib_subUnit (T : Sbox) (b k : Word) (p : Fin 8) :
    nib (subUnit T b k) p = sboxRead T (nib b p ^^^ nib k p) := by simp [subUnit]

@[simp] theorem nib_subInvUnit (T : Sbox) (b k : Word) (p : Fin 8) :
    nib (subInvUnit T b k) p = sboxInvRead T (nib b p) ^^^ nib k p := by simp [subInvUnit]

/-! ## The host's streams (20_memory.md R41, R45) -/

@[simp] theorem length_bytesOfBlock (r : Word) : (bytesOfBlock r).length = 4 := rfl

theorem length_memRead (input : List Byte) (a : Nat) : (memRead input a).length = min 4 (input.length - a) := by
  simp [memRead]

/-- The read that finds the input exhausted (45_file_block_processor.md R143). -/
theorem memRead_eq_nil (input : List Byte) (a : Nat) : memRead input a = [] ↔ input.length ≤ a := by
  simp [memRead]

/-- What the boundary checks can answer (R141, R142, 60_exceptions.md R167). -/
theorem boundary_cases (c : Call) :
    (¬ keyInRange c.keyValue ∧ boundary c = .error (.invalidKey c.keyValue))
    ∨ (keyInRange c.keyValue ∧ ¬ modeKnown c.modeValue ∧ boundary c = .error (.invalidMode c.modeValue))
    ∨ (keyInRange c.keyValue ∧ c.modeValue = "encrypt" ∧ boundary c = .ok (BitVec.ofInt 32 c.keyValue, .encrypt))
    ∨ (keyInRange c.keyValue ∧ c.modeValue = "decrypt" ∧ boundary c = .ok (BitVec.ofInt 32 c.keyValue, .decrypt)) := by
  by_cases hk : keyInRange c.keyValue
  · have hn : ¬¬ keyInRange c.keyValue := not_not.mpr hk
    by_cases he : c.modeValue = "encrypt"
    · exact .inr (.inr (.inl ⟨hk, he, by rw [boundary, if_neg hn, if_pos he]⟩))
    · by_cases hd : c.modeValue = "decrypt"
      · exact .inr (.inr (.inr ⟨hk, hd, by rw [boundary, if_neg hn, if_neg he, if_pos hd]⟩))
      · exact .inr (.inl ⟨hk, not_or.mpr ⟨he, hd⟩, by rw [boundary, if_neg hn, if_neg he, if_neg hd]⟩)
  · exact .inl ⟨hk, by rw [boundary, if_pos hk]⟩

/-- What opening the streams can answer (R143, R148). -/
theorem openStreams_cases (f : List StreamOp) :
    (StreamOp.openInput ∈ f ∧ openStreams f = ([.openInput], some (.ioFailure .openInput)))
    ∨ (StreamOp.openInput ∉ f ∧ StreamOp.openOutput ∈ f
        ∧ openStreams f = ([.openInput, .openOutput, .closeInput], some (.ioFailure .openOutput)))
    ∨ (StreamOp.openInput ∉ f ∧ StreamOp.openOutput ∉ f ∧ openStreams f = ([.openInput, .openOutput], none)) := by
  by_cases hi : StreamOp.openInput ∈ f <;> by_cases ho : StreamOp.openOutput ∈ f <;> simp [openStreams, hi, ho]

/-- Building a configuration answers the table itself, or refuses it (40_sbox_tables.md R82). -/
theorem configure_cases (t : Table) :
    (∃ h : t.wellFormed, configure t = .ok ⟨t, h⟩) ∨ (¬ t.wellFormed ∧ configure t = .error .sboxNotBijective) := by
  by_cases h : t.wellFormed
  · exact .inl ⟨h, by rw [configure, dif_pos h]⟩
  · exact .inr ⟨h, by rw [configure, dif_neg h]⟩

end Sys2Proof.Machine
end

