-- ==== Sys2Proof/Laws/PerInstr.lean ====
section
/-! SUPPORT. Facts about every instruction as syntax, one lemma per constructor: its encoding is one that its own row of
spec/opcode_table.json admits (30_encoding.md R61, R66). -/

namespace Sys2Proof.Laws.EncodingFitsRow

/-- The mask and match of the instruction's row admit its encoding. -/
def Statement (i : Instr) : Prop := i.row.admits (encode i) = true

/-- The mask of the two top bits of a packed word leaves its two-bit head (R60). -/
theorem top_bits (a : BitVec 2) (key block : Word) :
    (a ++ key ++ block : BitVec (2 + 32 + 32)).toNat &&& 0x30000000000000000 = a.toNat <<< 64 := by
  have hm : (0x30000000000000000 : Nat) = 3 <<< 64 := by decide
  have ha : a.toNat &&& 3 = a.toNat := Nat.and_two_pow_sub_one_of_lt_two_pow (n := 2) a.isLt
  rw [BitVec.toNat_append, BitVec.toNat_append, hm]
  refine Nat.eq_of_testBit_eq fun i => ?_
  by_cases hi : 64 ≤ i
  · have h32 : 32 ≤ i := by omega
    have h33 : 32 ≤ i - 32 := by omega
    have e : i - 32 - 32 = i - 64 := by omega
    have hk : key.toNat.testBit (i - 32) = false :=
      Nat.testBit_lt_two_pow (Nat.lt_of_lt_of_le key.isLt (Nat.pow_le_pow_right (by decide) h33))
    have hb : block.toNat.testBit i = false :=
      Nat.testBit_lt_two_pow (Nat.lt_of_lt_of_le block.isLt (Nat.pow_le_pow_right (by decide) h32))
    have h3 : (a.toNat.testBit (i - 64) && (3 : Nat).testBit (i - 64)) = a.toNat.testBit (i - 64) := by
      rw [← Nat.testBit_and, ha]
    rw [Nat.testBit_and, Nat.testBit_or, Nat.testBit_shiftLeft, Nat.testBit_or, Nat.testBit_shiftLeft,
      Nat.testBit_shiftLeft, Nat.testBit_shiftLeft]
    simp [hi, h32, h33, hk, hb, e, h3]
  · rw [Nat.testBit_and, Nat.testBit_shiftLeft, Nat.testBit_shiftLeft]
    simp [hi]

theorem nop : Statement .nop := by
  unfold Statement
  decide

theorem enc (key block : Word) : Statement (.enc key block) := by
  have h : (encWord key block).toNat &&& 0x30000000000000000 = 0x20000000000000000 := top_bits 2#2 key block
  simp [Statement, Instr.row, encode, Row.admits, h]

theorem dec (key block : Word) : Statement (.dec key block) := by
  have h : (decWord key block).toNat &&& 0x30000000000000000 = 0x30000000000000000 := top_bits 3#2 key block
  simp [Statement, Instr.row, encode, Row.admits, h]

theorem sbox (i : Nibble) : Statement (.sbox i) := by
  simp [Statement, Instr.row, encode, Row.admits, UnitPort.pair]

theorem sboxInv (i : Nibble) : Statement (.sboxInv i) := by
  simp [Statement, Instr.row, encode, Row.admits, UnitPort.pair]

theorem rotl32 (x : Word) (n : Nat) : Statement (.rotl32 x n) := by
  simp [Statement, Instr.row, encode, Row.admits, UnitPort.pair]

theorem rotr32 (x : Word) (n : Nat) : Statement (.rotr32 x n) := by
  simp [Statement, Instr.row, encode, Row.admits, UnitPort.pair]

theorem keysched (key : Word) : Statement (.keysched key) := by
  simp [Statement, Instr.row, encode, Row.admits, UnitPort.pair]

theorem sub (block subkey : Word) : Statement (.sub block subkey) := by
  simp [Statement, Instr.row, encode, Row.admits, UnitPort.pair]

theorem subinv (block subkey : Word) : Statement (.subinv block subkey) := by
  simp [Statement, Instr.row, encode, Row.admits, UnitPort.pair]

theorem perm (block subkey : Word) : Statement (.perm block subkey) := by
  simp [Statement, Instr.row, encode, Row.admits, UnitPort.pair]

theorem perminv (block subkey : Word) : Statement (.perminv block subkey) := by
  simp [Statement, Instr.row, encode, Row.admits, UnitPort.pair]

theorem round (dir : Mode) (key : Word) (s : Fin 3) (d : Word) : Statement (.round dir key s d) := by
  cases dir <;> simp [Statement, Instr.row, encode, Row.admits, UnitPort.pair]

end Sys2Proof.Laws.EncodingFitsRow
end

