-- ==== Sys2Proof/Laws/State.lean ====
section
/-! SUPPORT. One lemma per field per update of State, so that no later proof unfolds a record update. -/

namespace Sys2Proof.Machine

/-! ## `State.resetEdge`: the three stages become bubbles -/

@[simp] theorem State.resetEdge_s1 (s : State) : (s.resetEdge).s1 = none := rfl
@[simp] theorem State.resetEdge_s2 (s : State) : (s.resetEdge).s2 = none := rfl
@[simp] theorem State.resetEdge_s3 (s : State) : (s.resetEdge).s3 = none := rfl
@[simp] theorem State.resetEdge_ports (s : State) : (s.resetEdge).ports = s.ports := rfl
@[simp] theorem State.resetEdge_take (s : State) : (s.resetEdge).take = s.take := rfl
@[simp] theorem State.resetEdge_agenda (s : State) : (s.resetEdge).agenda = s.agenda := rfl
@[simp] theorem State.resetEdge_taken (s : State) : (s.resetEdge).taken = s.taken := rfl
@[simp] theorem State.resetEdge_driver (s : State) : (s.resetEdge).driver = s.driver := rfl
@[simp] theorem State.resetEdge_returns (s : State) : (s.resetEdge).returns = s.returns := rfl
@[simp] theorem State.resetEdge_unitOut (s : State) : (s.resetEdge).unitOut = s.unitOut := rfl

/-! ## `State.setUnitOut`: only the record of the unit's output wires -/

@[simp] theorem State.setUnitOut_s1 (s : State) (o : UnitOut) : (s.setUnitOut o).s1 = s.s1 := rfl
@[simp] theorem State.setUnitOut_s2 (s : State) (o : UnitOut) : (s.setUnitOut o).s2 = s.s2 := rfl
@[simp] theorem State.setUnitOut_s3 (s : State) (o : UnitOut) : (s.setUnitOut o).s3 = s.s3 := rfl
@[simp] theorem State.setUnitOut_ports (s : State) (o : UnitOut) : (s.setUnitOut o).ports = s.ports := rfl
@[simp] theorem State.setUnitOut_take (s : State) (o : UnitOut) : (s.setUnitOut o).take = s.take := rfl
@[simp] theorem State.setUnitOut_agenda (s : State) (o : UnitOut) : (s.setUnitOut o).agenda = s.agenda := rfl
@[simp] theorem State.setUnitOut_taken (s : State) (o : UnitOut) : (s.setUnitOut o).taken = s.taken := rfl
@[simp] theorem State.setUnitOut_driver (s : State) (o : UnitOut) : (s.setUnitOut o).driver = s.driver := rfl
@[simp] theorem State.setUnitOut_returns (s : State) (o : UnitOut) : (s.setUnitOut o).returns = s.returns := rfl
@[simp] theorem State.setUnitOut_unitOut (s : State) (o : UnitOut) : (s.setUnitOut o).unitOut = some o := rfl

/-! ## `State.advance`: only the three stages -/

@[simp] theorem State.advance_s1 (T : Sbox) (s : State) (c : Option Stage) : (s.advance T c).s1 = c.map (Stage.through T 0) := rfl
@[simp] theorem State.advance_s2 (T : Sbox) (s : State) (c : Option Stage) : (s.advance T c).s2 = s.s1.map (Stage.through T 1) := rfl
@[simp] theorem State.advance_s3 (T : Sbox) (s : State) (c : Option Stage) : (s.advance T c).s3 = s.s2.map fun st => (Stage.through T 2 st).data := rfl
@[simp] theorem State.advance_ports (T : Sbox) (s : State) (c : Option Stage) : (s.advance T c).ports = s.ports := rfl
@[simp] theorem State.advance_take (T : Sbox) (s : State) (c : Option Stage) : (s.advance T c).take = s.take := rfl
@[simp] theorem State.advance_agenda (T : Sbox) (s : State) (c : Option Stage) : (s.advance T c).agenda = s.agenda := rfl
@[simp] theorem State.advance_taken (T : Sbox) (s : State) (c : Option Stage) : (s.advance T c).taken = s.taken := rfl
@[simp] theorem State.advance_driver (T : Sbox) (s : State) (c : Option Stage) : (s.advance T c).driver = s.driver := rfl
@[simp] theorem State.advance_returns (T : Sbox) (s : State) (c : Option Stage) : (s.advance T c).returns = s.returns := rfl
@[simp] theorem State.advance_unitOut (T : Sbox) (s : State) (c : Option Stage) : (s.advance T c).unitOut = s.unitOut := rfl

/-! ## `State.returnCall`: only the host's fields -/

@[simp] theorem State.returnCall_s1 (s : State) (r : Return) : (s.returnCall r).s1 = s.s1 := rfl
@[simp] theorem State.returnCall_s2 (s : State) (r : Return) : (s.returnCall r).s2 = s.s2 := rfl
@[simp] theorem State.returnCall_s3 (s : State) (r : Return) : (s.returnCall r).s3 = s.s3 := rfl
@[simp] theorem State.returnCall_ports (s : State) (r : Return) : (s.returnCall r).ports = Ports.idle := rfl
@[simp] theorem State.returnCall_take (s : State) (r : Return) : (s.returnCall r).take = .ignore := rfl
@[simp] theorem State.returnCall_agenda (s : State) (r : Return) : (s.returnCall r).agenda = s.agenda := rfl
@[simp] theorem State.returnCall_taken (s : State) (r : Return) : (s.returnCall r).taken = s.taken := rfl
@[simp] theorem State.returnCall_driver (s : State) (r : Return) : (s.returnCall r).driver = .idle := rfl
@[simp] theorem State.returnCall_returns (s : State) (r : Return) : (s.returnCall r).returns = s.returns ++ [r] := rfl
@[simp] theorem State.returnCall_unitOut (s : State) (r : Return) : (s.returnCall r).unitOut = s.unitOut := rfl

end Sys2Proof.Machine
end

