-- ==== Sys2Proof/Laws/Step.lean ====
section
/-! SUPPORT. What a step can do, said once: the meanings of the instructions, the driver's move, the host's half of a cycle, and
the step itself. -/

namespace Sys2Proof.Machine

/-! ## The host's half of a cycle leaves the core alone (60_exceptions.md R168, 44_block_cipher.md R129) -/

@[simp] theorem State.startProcess_core (s : State) (c : Call) :
    (s.startProcess c).s1 = s.s1 ∧ (s.startProcess c).s2 = s.s2 ∧ (s.startProcess c).s3 = s.s3
      ∧ (s.startProcess c).unitOut = s.unitOut := by
  unfold State.startProcess
  split
  · exact ⟨rfl, rfl, rfl, rfl⟩
  · split <;> exact ⟨rfl, rfl, rfl, rfl⟩

theorem State.hostTake_core (s : State) :
    s.hostTake.s1 = s.s1 ∧ s.hostTake.s2 = s.s2 ∧ s.hostTake.s3 = s.s3 ∧ s.hostTake.unitOut = s.unitOut := by
  unfold State.hostTake
  split <;> exact ⟨rfl, rfl, rfl, rfl⟩

theorem State.hostChoose_core (s : State) :
    s.hostChoose.s1 = s.s1 ∧ s.hostChoose.s2 = s.s2 ∧ s.hostChoose.s3 = s.s3 ∧ s.hostChoose.unitOut = s.unitOut := by
  unfold State.hostChoose
  split
  · split <;> exact ⟨rfl, rfl, rfl, rfl⟩
  · split
    · exact ⟨rfl, rfl, rfl, rfl⟩
    · exact ⟨rfl, rfl, rfl, rfl⟩
    · exact State.startProcess_core _ _

@[simp] theorem State.hostMove_s1 (s : State) : s.hostMove.s1 = s.s1 :=
  (s.hostTake.hostChoose_core.1).trans s.hostTake_core.1

@[simp] theorem State.hostMove_s2 (s : State) : s.hostMove.s2 = s.s2 :=
  (s.hostTake.hostChoose_core.2.1).trans s.hostTake_core.2.1

@[simp] theorem State.hostMove_s3 (s : State) : s.hostMove.s3 = s.s3 :=
  (s.hostTake.hostChoose_core.2.2.1).trans s.hostTake_core.2.2.1

@[simp] theorem State.hostMove_unitOut (s : State) : s.hostMove.unitOut = s.unitOut :=
  (s.hostTake.hostChoose_core.2.2.2).trans s.hostTake_core.2.2.2

/-! ## The driver -/

/-- What taking a result can do: nothing, or one result more and one command less in flight (45_file_block_processor.md R149). -/
theorem Job.takeResult_cases (j : Job) (out : Option Word) :
    ((out = none ∨ j.inFlight = 0) ∧ j.takeResult out = j)
    ∨ (∃ r, out = some r ∧ j.inFlight ≠ 0
        ∧ j.takeResult out = { j with results := j.results ++ [r], inFlight := j.inFlight - 1 }) := by
  cases out with
  | none => exact .inl ⟨.inl rfl, rfl⟩
  | some r =>
    by_cases h0 : j.inFlight = 0
    · exact .inl ⟨.inr h0, by simp only [takeResult, h0, if_true]⟩
    · exact .inr ⟨r, rfl, h0, by simp only [takeResult, h0, if_false]⟩

/-- What a write can do: nothing, a block written, or a failure that ends the `PROCESS` (R149, 60_exceptions.md R164). -/
theorem Job.writeOne_cases (j : Job) :
    (j.results = [] ∧ j.writeOne = .ok j)
    ∨ (∃ r rs, j.results = r :: rs ∧ StreamOp.write j.written.length ∉ j.call.failing
        ∧ j.writeOne = .ok { j with trace := j.trace ++ [StreamOp.write j.written.length], written := memWrite j.written r,
                                    results := rs })
    ∨ (j.results ≠ [] ∧ StreamOp.write j.written.length ∈ j.call.failing
        ∧ j.writeOne = .error ({ j with trace := j.trace ++ [StreamOp.write j.written.length] }.finish
            (.error (.ioFailure (.write j.written.length))))) := by
  cases hr : j.results with
  | nil => exact .inl ⟨rfl, by simp only [writeOne, hr]⟩
  | cons r rs =>
    by_cases hf : StreamOp.write j.written.length ∈ j.call.failing
    · exact .inr (.inr ⟨by simp, hf, by simp only [writeOne, hr, hf, if_true]⟩)
    · exact .inr (.inl ⟨r, rs, rfl, hf, by simp only [writeOne, hr, hf, if_false]⟩)

/-- What holds before a write and is kept by each holds after any number of them. -/
theorem Job.writeMany_induction {P : Job → Prop} (hstep : ∀ j j', P j → j.writeOne = .ok j' → P j') :
    ∀ (n : Nat) (j j' : Job), P j → j.writeMany n = .ok j' → P j'
  | 0, _, _, hj, h => by rw [writeMany] at h; cases h; exact hj
  | n + 1, j, j', hj, h => by
    rw [writeMany] at h
    cases hw : j.writeOne with
    | error r => rw [hw] at h; cases h
    | ok k => rw [hw] at h; exact writeMany_induction hstep n k j' (hstep j k hj hw) h

/-- What a read can do: nothing when the driver reads no more, fail, find the input exhausted, or queue one Block (R143). -/
theorem Job.readOne_cases (j : Job) :
    (j.feed ≠ .reading ∧ j.readOne = j)
    ∨ (j.feed = .reading ∧ StreamOp.read j.offset ∈ j.call.failing
        ∧ j.readOne = { j with trace := j.trace ++ [StreamOp.read j.offset], feed := .failed (.ioFailure (.read j.offset)) })
    ∨ (j.feed = .reading ∧ StreamOp.read j.offset ∉ j.call.failing ∧ memRead j.call.input j.offset = []
        ∧ j.readOne = { j with trace := j.trace ++ [StreamOp.read j.offset], feed := .exhausted })
    ∨ (j.feed = .reading ∧ StreamOp.read j.offset ∉ j.call.failing ∧ memRead j.call.input j.offset ≠ []
        ∧ j.readOne = { j with trace := j.trace ++ [StreamOp.read j.offset], offset := j.offset + 4,
                               queue := j.queue ++ [blockOfChunk (memRead j.call.input j.offset)] }) := by
  cases hr : j.feed with
  | exhausted => exact .inl ⟨by simp, by simp only [readOne, hr]⟩
  | failed e => exact .inl ⟨by simp, by simp only [readOne, hr]⟩
  | reading =>
    by_cases hf : StreamOp.read j.offset ∈ j.call.failing
    · exact .inr (.inl ⟨rfl, hf, by simp only [readOne, hr, hf, if_true]⟩)
    · cases hc : memRead j.call.input j.offset with
      | nil => exact .inr (.inr (.inl ⟨rfl, hf, rfl, by simp only [readOne, hr, hf, if_false, hc]⟩))
      | cons b bs => exact .inr (.inr (.inr ⟨rfl, hf, by simp, by simp only [readOne, hr, hf, if_false, hc]⟩))

/-- What holds before a read and is kept by each holds after any number of them. -/
theorem Job.readMany_induction {P : Job → Prop} (hstep : ∀ j, P j → P j.readOne) :
    ∀ (n : Nat) (j : Job), P j → P (j.readMany n)
  | 0, _, hj => hj
  | n + 1, j, hj => readMany_induction hstep n j.readOne (hstep j hj)

/-- When a `PROCESS` ends without a failing write (R143, R149). -/
theorem Job.outcome_eq_some (j : Job) (result : Result) : j.outcome = some result ↔
    j.queue = [] ∧ j.inFlight = 0 ∧ j.results = []
      ∧ ((j.feed = .exhausted ∧ result = .ok j.written) ∨ ∃ e, j.feed = .failed e ∧ result = .error e) := by
  by_cases h : j.queue = [] ∧ j.inFlight = 0 ∧ j.results = []
  · cases hf : j.feed <;> simp [outcome, h, hf, eq_comm]
  · rw [outcome, if_neg h]
    exact ⟨fun h' => (Option.some_ne_none _ h'.symm).elim, fun ⟨a, b, c, _⟩ => absurd ⟨a, b, c⟩ h⟩

/-- What choosing the ports can do: a cycle of the lead, an idle cycle, or the command of the oldest Block queued (R149). -/
theorem Job.choosePorts_cases (j : Job) (issue : Bool) :
    (∃ p ps, j.lead = p :: ps ∧ j.choosePorts issue = .go { j with lead := ps } p)
    ∨ (j.lead = [] ∧ (j.queue = [] ∨ issue = false) ∧ j.choosePorts issue = .go j Ports.idle)
    ∨ (∃ b bs, j.lead = [] ∧ j.queue = b :: bs ∧ issue = true
        ∧ j.choosePorts issue = .go { j with queue := bs, inFlight := j.inFlight + 1, commands := j.commands + 1 }
            (Ports.command j.mode j.key b)) := by
  cases hl : j.lead with
  | cons p ps => exact .inl ⟨p, ps, rfl, by simp only [choosePorts, hl]⟩
  | nil =>
    cases hq : j.queue with
    | nil => exact .inr (.inl ⟨rfl, .inl rfl, by simp only [choosePorts, hl, hq]⟩)
    | cons b bs =>
      cases issue
      · exact .inr (.inl ⟨rfl, .inr rfl, by simp only [choosePorts, hl, hq]; rfl⟩)
      · exact .inr (.inr ⟨b, bs, rfl, rfl, rfl, by simp only [choosePorts, hl, hq]; rfl⟩)

/-- What a cycle of the driver can do: a write fails, the `PROCESS` ends, or it goes on with the ports it chooses. -/
theorem Job.move_cases (j : Job) (out : Option Word) :
    (∃ r, ({ j with pace := j.pace.tail }.takeResult out).writeMany (j.pace.headD Pace.eager).writes = .error r
        ∧ j.move out = .stop r)
    ∨ (∃ j1, ({ j with pace := j.pace.tail }.takeResult out).writeMany (j.pace.headD Pace.eager).writes = .ok j1
        ∧ ((∃ result, (j1.readMany (j.pace.headD Pace.eager).reads).outcome = some result
              ∧ j.move out = .stop ((j1.readMany (j.pace.headD Pace.eager).reads).finish result))
          ∨ ((j1.readMany (j.pace.headD Pace.eager).reads).outcome = none
              ∧ j.move out = (j1.readMany (j.pace.headD Pace.eager).reads).choosePorts (j.pace.headD Pace.eager).issue))) := by
  cases hw : ({ j with pace := j.pace.tail }.takeResult out).writeMany (j.pace.headD Pace.eager).writes with
  | error r => exact .inl ⟨r, rfl, by simp only [move, hw]⟩
  | ok j1 =>
    refine .inr ⟨j1, rfl, ?_⟩
    cases ho : (j1.readMany (j.pace.headD Pace.eager).reads).outcome with
    | some result => exact .inl ⟨result, rfl, by simp only [move, hw, ho]⟩
    | none => exact .inr ⟨rfl, by simp only [move, hw, ho]⟩

/-- What a call of `PROCESS` can do: end at once with one of its errors, or run after its first cycles (R143, R149; log 15). -/
theorem State.startProcess_cases (s : State) (c : Call) :
    (∃ e, boundary c = .error e ∧ s.startProcess c = s.raiseError e [] 0 [])
    ∨ (∃ key mode trace e, boundary c = .ok (key, mode) ∧ openStreams c.failing = (trace, some e)
        ∧ s.startProcess c = s.raiseError e trace 0 [])
    ∨ (∃ key mode trace, boundary c = .ok (key, mode) ∧ openStreams c.failing = (trace, none)
        ∧ s.startProcess c = { s with
            driver := .running (Job.start c key mode (s.prepareCycles c.prepare).2 trace)
            ports := (s.prepareCycles c.prepare).1
            take := .ignore }) := by
  cases hb : boundary c with
  | error e => exact .inl ⟨e, rfl, by simp only [startProcess, hb]⟩
  | ok km =>
    rcases km with ⟨key, mode⟩
    rcases ho : openStreams c.failing with ⟨trace, _ | e⟩
    · exact .inr (.inr ⟨key, mode, trace, rfl, rfl, by simp only [startProcess, hb, ho]⟩)
    · exact .inr (.inl ⟨key, mode, trace, e, rfl, rfl, by simp only [startProcess, hb, ho]⟩)

/-! ## The meanings -/

/-- What an instruction can do: a command advances the pipeline, a unit evaluated by itself sets the record of its output; nothing
else, and never a stop (60_exceptions.md R161). -/
theorem exec_cases (i : Instr) (s : State) :
    (i.issuable = true ∧ ∃ c, exec i s = .next (s.advance Config.sbox c))
    ∨ (i.issuable = false ∧ ∃ o, exec i s = .next (s.setUnitOut o)) := by
  cases i
  case nop => exact .inl ⟨rfl, none, rfl⟩
  case enc key block => exact .inl ⟨rfl, some ⟨.encrypt, key, block⟩, rfl⟩
  case dec key block => exact .inl ⟨rfl, some ⟨.decrypt, key, block⟩, rfl⟩
  all_goals exact .inr ⟨rfl, _, rfl⟩

/-! ## The step -/

/-- The bits of a command word, field by field (R60). -/
theorem getLsbD_word (p : Ports) (i : Nat) :
    p.word.getLsbD i
      = if i < 32 then p.blockIn.getLsbD i
        else if i - 32 < 32 then p.key.getLsbD (i - 32)
        else if i - 32 - 32 < 1 then p.mode.getLsbD (i - 32 - 32) else p.inValid.getLsbD (i - 32 - 32 - 1) := by
  have h1 : p.word.getLsbD i = if i < 32 then p.blockIn.getLsbD i
      else (p.inValid ++ p.mode ++ p.key : BitVec (1 + 1 + 32)).getLsbD (i - 32) := BitVec.getLsbD_append
  have h2 : (p.inValid ++ p.mode ++ p.key : BitVec (1 + 1 + 32)).getLsbD (i - 32)
      = if i - 32 < 32 then p.key.getLsbD (i - 32)
        else (p.inValid ++ p.mode : BitVec (1 + 1)).getLsbD (i - 32 - 32) := BitVec.getLsbD_append
  have h3 : (p.inValid ++ p.mode : BitVec (1 + 1)).getLsbD (i - 32 - 32)
      = if i - 32 - 32 < 1 then p.mode.getLsbD (i - 32 - 32) else p.inValid.getLsbD (i - 32 - 32 - 1) :=
    BitVec.getLsbD_append
  rw [h1, h2, h3]

/-- A word with `in_valid` = 0 is the `NOP`, and any other is the command its ports hold (30_encoding.md R60, R61). -/
theorem exec_decode_word (p : Ports) (s : State) :
    exec (decode p.word) s
      = .next (s.advance Config.sbox (if p.inValid = 0 then none else some ⟨Mode.ofBit p.mode, p.key, p.blockIn⟩)) := by
  have hv : p.word.getLsbD 65 = p.inValid.getLsbD 0 := by simp only [getLsbD_word]; simp
  have hm : p.word.getLsbD 64 = p.mode.getLsbD 0 := by simp only [getLsbD_word]; simp
  have hk : p.word.extractLsb' 32 32 = p.key := by
    refine BitVec.eq_of_getLsbD_eq fun i hi => ?_
    simp only [BitVec.getLsbD_extractLsb', getLsbD_word]
    simp [hi]
  have hb : p.word.extractLsb' 0 32 = p.blockIn := by
    refine BitVec.eq_of_getLsbD_eq fun i hi => ?_
    simp only [BitVec.getLsbD_extractLsb', getLsbD_word]
    simp [hi]
  have bit : ∀ b : BitVec 1, b.getLsbD 0 = false ↔ b = 0 := by decide
  by_cases h0 : p.inValid = 0
  · rw [decode, hv, if_pos ((bit _).mpr h0), if_pos h0]
    rfl
  · rw [decode, hv, hm, hk, hb, if_neg (fun h => h0 ((bit _).mp h)), if_neg h0, Mode.ofBit]
    by_cases hm0 : p.mode = 0
    · rw [if_pos ((bit _).mpr hm0), if_pos hm0]
      rfl
    · rw [if_neg (fun h => hm0 ((bit _).mp h)), if_neg hm0]
      rfl

/-- Everything a step can do: the host's misuse stops the machine, a reset edge makes three bubbles, and any other edge advances
the pipeline with the command on the ports (44_block_cipher.md R130, 10_state.md R30). -/
theorem step_cases (s : State) :
    (s.usesNoResult = true ∧ step s = .fault .blockOutWhileInvalid)
    ∨ (s.usesNoResult = false ∧ s.ports.rst = true ∧ step s = .next s.hostMove.resetEdge)
    ∨ (s.usesNoResult = false ∧ s.ports.rst = false
        ∧ step s = .next (s.hostMove.advance Config.sbox
            (if s.ports.inValid = 0 then none else some ⟨Mode.ofBit s.ports.mode, s.ports.key, s.ports.blockIn⟩))) := by
  cases hu : s.usesNoResult
  · cases hr : s.ports.rst
    · refine .inr (.inr ⟨rfl, rfl, ?_⟩)
      rw [step, hu, hr]
      exact exec_decode_word _ _
    · refine .inr (.inl ⟨rfl, rfl, ?_⟩)
      rw [step, hu, hr]
      rfl
  · refine .inl ⟨rfl, ?_⟩
    rw [step, hu]
    rfl

end Sys2Proof.Machine
end

