-- ==== Sys2Proof/Laws/Process.lean ====
section
/-! SUPPORT. What the claims about `PROCESS` at the ports lean on: the chunks of a stream, the command on the ports, how the pipeline
empties, and the results still to come. -/

namespace Sys2Proof.Machine

/-! ## Chunks (20_memory.md R43) -/

/-- Whole chunks can be cut off in front. -/
theorem chunks_append : ∀ (k : Nat) (l m : List Byte), l.length = 4 * k → chunks (l ++ m) = chunks l ++ chunks m
  | 0, l, m, h => by rw [List.length_eq_zero_iff.mp h]; rfl
  | k + 1, _ :: _ :: _ :: _ :: l, m, h => by
    have hl : l.length = 4 * k := by simp only [List.length_cons] at h; omega
    simp only [List.cons_append, chunks, chunks_append k l m hl]

/-- Four bytes or fewer are one chunk. -/
theorem chunks_single (c : List Byte) (hne : c ≠ []) (h4 : c.length ≤ 4) : chunks c = [c] := by
  match c, hne, h4 with
  | [_], _, _ => rfl
  | [_, _], _, _ => rfl
  | [_, _, _], _, _ => rfl
  | [_, _, _, _], _, _ => rfl

/-- One read further, the transform of a stream grows by the four bytes of one result (45_file_block_processor.md R143). -/
theorem transformBytes_take_add (T : Sbox) (mode : Mode) (key : Word) (input : List Byte) (n : Nat)
    (hr : memRead input (4 * n) ≠ []) :
    transformBytes T mode key (input.take (4 * n + 4))
      = transformBytes T mode key (input.take (4 * n))
        ++ bytesOfBlock (cryptBlock T mode (blockOfChunk (memRead input (4 * n))) key) := by
  have hl : 4 * n < input.length := Nat.lt_of_not_le fun h => hr ((memRead_eq_nil _ _).mpr h)
  have ht : input.take (4 * n + 4) = input.take (4 * n) ++ memRead input (4 * n) := by rw [memRead, List.take_add]
  have h4 : (memRead input (4 * n)).length ≤ 4 := by rw [length_memRead]; omega
  rw [ht, transformBytes, chunks_append n _ _ (by rw [List.length_take]; omega), chunks_single _ hr h4]
  simp [transformBytes]

/-! ## The command on the ports (44_block_cipher.md R130) -/

@[simp] theorem portCommand_idle : portCommand Ports.idle = none := by decide

@[simp] theorem portCommand_reset : portCommand Ports.reset = none := by decide

@[simp] theorem portCommand_command (mode : Mode) (key block : Word) :
    portCommand (Ports.command mode key block) = some ⟨mode, key, block⟩ := by
  cases mode <;> simp [portCommand, Ports.command, Mode.bit, Mode.ofBit]

/-! ## The three stages after a step -/

/-- A next state has the host's fields of `hostMove`, and the stages of R130, the command on the ports being the one sampled. -/
theorem step_stages {s t : State} (h : step s = .next t) :
    t.take = s.hostMove.take ∧ t.driver = s.hostMove.driver ∧ t.ports = s.hostMove.ports ∧ t.agenda = s.hostMove.agenda
    ∧ t.returns = s.hostMove.returns
    ∧ ((s.ports.rst = true ∧ t.s1 = none ∧ t.s2 = none ∧ t.s3 = none)
      ∨ (s.ports.rst = false ∧ t.s1 = (portCommand s.ports).map (Stage.through Config.sbox 0)
          ∧ t.s2 = s.s1.map (Stage.through Config.sbox 1)
          ∧ t.s3 = s.s2.map fun st => (Stage.through Config.sbox 2 st).data)) := by
  rcases step_cases s with ⟨_, h'⟩ | ⟨_, hr, h'⟩ | ⟨_, hr, h'⟩ <;> rw [h] at h' <;> cases h'
  · exact ⟨rfl, rfl, rfl, rfl, rfl, .inl ⟨hr, rfl, rfl, rfl⟩⟩
  · exact ⟨rfl, rfl, rfl, rfl, rfl, .inr ⟨hr, by simp [portCommand, hr], by simp, by simp⟩⟩

/-- A cycle without a command brings the pipeline one cycle nearer to empty (R133). -/
theorem State.busy_step {s t : State} (h : step s = .next t) (hp : portCommand t.ports = none) : t.busy ≤ s.busy - 1 := by
  obtain ⟨_, _, _, _, _, ⟨_, h1, h2, _⟩ | ⟨hr, h1, h2, _⟩⟩ := step_stages h
  · simp [State.busy, hp, h1, h2]
  · simp only [State.busy, hp, h1, h2, hr, Option.isSome_map]
    cases portCommand s.ports <;> cases s.s1 <;> cases s.s2 <;> simp <;> split <;> simp

/-- When no cycle is left the next state has an empty pipeline (R133). -/
theorem State.stages_of_busy_zero {s t : State} (h : step s = .next t) (hb : s.busy = 0) :
    t.s1 = none ∧ t.s2 = none ∧ t.s3 = none := by
  obtain ⟨_, _, _, _, _, ⟨_, hs⟩ | ⟨hr, h1, h2, h3⟩⟩ := step_stages h
  · exact hs
  · simp only [State.busy, hr] at hb
    rw [h1, h2, h3]
    revert hb
    cases portCommand s.ports <;> cases s.s1 <;> cases s.s2 <;> simp

/-! ## The results still to come (R134) -/

/-- The three positions in a row are the transform (R131). -/
theorem Stage.through_all (T : Sbox) (st : Stage) :
    (((st.through T 0).through T 1).through T 2).data = cryptBlock T st.mode st.data st.key := by
  rcases st with ⟨mode, key, data⟩
  cases mode <;>
    simp only [Stage.through, cryptBlock, encBlock, decBlock, roundUnit, List.foldl, encRound, decRound, roundIndex, subkey] <;> rfl

/-- A step without a reset drops the result presented and keeps the others in order; what the new ports hold comes last. -/
theorem State.pending_step {s t : State} (h : step s = .next t) (hr : s.ports.rst = false) :
    s.pending Config.sbox ++ ((portCommand t.ports).map fun c => cryptBlock Config.sbox c.mode c.data c.key).toList
      = s.s3.toList ++ t.pending Config.sbox := by
  obtain ⟨_, _, _, _, _, ⟨hr', _⟩ | ⟨_, h1, h2, h3⟩⟩ := step_stages h
  · rw [hr] at hr'; cases hr'
  · simp only [State.pending, h1, h2, h3]
    cases portCommand s.ports <;> cases s.s1 <;> cases s.s2 <;> simp [Stage.through_all]

end Sys2Proof.Machine
end

