-- ==== Sys2Proof/Tests/Slice0.lean ====
section
/-! SUPPORT. The model's own tests: expected values are the spec's (95_test_vectors.md), each named with its section; the smoke test
of every check; and a witness for every statement that has hypotheses. The example tables are the spec's test data
(40_sbox_tables.md R85), not the hardware's. -/

namespace Sys2Proof.Tests

open Sys2Proof Sys2Proof.Machine

/-! ## Example tables (R85) -/

def tableEx1 : Table := #v[0xE, 0x4, 0xD, 0x1, 0x2, 0xF, 0xB, 0x8, 0x3, 0xA, 0x6, 0xC, 0x5, 0x9, 0x0, 0x7]

def tableEx2 : Table := #v[0xC, 0x5, 0x6, 0xB, 0x9, 0x0, 0xA, 0xD, 0x3, 0xE, 0xF, 0x8, 0x4, 0x7, 0x1, 0x2]

/-- The table of 95_test_vectors.md S1 that must be refused: 0 twice, 7 missing. -/
def tableBad : Table := #v[0xE, 0x4, 0xD, 0x1, 0x2, 0xF, 0xB, 0x8, 0x3, 0xA, 0x6, 0xC, 0x5, 0x9, 0x0, 0x0]

theorem test_ex1_wellFormed : tableEx1.wellFormed := by decide

theorem test_ex2_wellFormed : tableEx2.wellFormed := by decide

def ex1 : Sbox := ⟨tableEx1, test_ex1_wellFormed⟩

def ex2 : Sbox := ⟨tableEx2, test_ex2_wellFormed⟩

/-! ## Smoke tests: an ill-formed term for each check -/

theorem test_bad_table_illFormed : ¬ tableBad.wellFormed := by decide

theorem test_bad_table_refused : configure tableBad = .error .sboxNotBijective := by
  rw [configure, dif_neg test_bad_table_illFormed]

theorem test_unit_not_issuable : (Instr.sub 0 0).issuable = false := by decide

theorem test_key_too_wide : ¬ keyInRange 0x100000000 := by decide

theorem test_key_negative : ¬ keyInRange (-1) := by decide

theorem test_key_widest : keyInRange 0xFFFFFFFF := by decide

theorem test_mode_xyz : ¬ modeKnown "xyz" := by decide

theorem test_mode_wrong_case : ¬ modeKnown "ENCRYPT" := by decide

theorem test_mode_empty : ¬ modeKnown "" := by decide

theorem test_unit_missing_select : decodeEncoding (.unit (.sub 1 2) none) = .error .missingSelect := by rfl

theorem test_keysched_unexpected_select : decodeEncoding (.unit (.keysched 1) (some 0)) = .error .unexpectedSelect := by rfl

theorem test_short_word_refused : decodeTableWord 8 1 = none := by decide

/-! ## Decoding: words written out from the encoding (30_encoding.md R60, R67) -/

/-- `in_valid` = 1, `mode` = 0, key 0xA1B2C3D4, block 0, bit by bit. -/
theorem test_decode_enc :
    decode (0b101010000110110010110000111101010000000000000000000000000000000000 : BitVec 66) = .enc 0xA1B2C3D4 0 := by decide

/-- `in_valid` = 1, `mode` = 1, key 0xCAFEBABE, block 0xDEADBEEF (program P2, cycle 2). -/
theorem test_decode_dec : decode 0x3CAFEBABEDEADBEEF = .dec 0xCAFEBABE 0xDEADBEEF := by decide

/-- The boundaries of the three rows (R61). -/
theorem test_decode_boundaries :
    decode 0x1FFFFFFFFFFFFFFFF = .nop ∧ decode 0x20000000000000000 = .enc 0 0
    ∧ decode 0x2FFFFFFFFFFFFFFFF = .enc 0xFFFFFFFF 0xFFFFFFFF ∧ decode 0x30000000000000000 = .dec 0 0
    ∧ decode 0x3FFFFFFFFFFFFFFFF = .dec 0xFFFFFFFF 0xFFFFFFFF := by decide

theorem test_table_word : decodeTableWord 72 0x2A1B2C3D400000000 = some (.enc 0xA1B2C3D4 0) := by decide

/-- Within a pair `dir` = 0 is the forward unit and 1 the inverse (R66). -/
theorem test_select_units :
    decodeEncoding (.unit (.sbox 3) (some 0)) = .ok (.sbox 3) ∧ decodeEncoding (.unit (.sbox 3) (some 1)) = .ok (.sboxInv 3)
    ∧ decodeEncoding (.unit (.rot 1 4) (some 0)) = .ok (.rotl32 1 4)
    ∧ decodeEncoding (.unit (.rot 1 4) (some 1)) = .ok (.rotr32 1 4)
    ∧ decodeEncoding (.unit (.sub 1 2) (some 0)) = .ok (.sub 1 2)
    ∧ decodeEncoding (.unit (.sub 1 2) (some 1)) = .ok (.subinv 1 2)
    ∧ decodeEncoding (.unit (.perm 1 2) (some 0)) = .ok (.perm 1 2)
    ∧ decodeEncoding (.unit (.perm 1 2) (some 1)) = .ok (.perminv 1 2)
    ∧ decodeEncoding (.unit (.round 1 2 3) (some 1)) = .ok (.round .decrypt 1 2 3)
    ∧ decodeEncoding (.unit (.keysched 1) none) = .ok (.keysched 1) := by
  refine ⟨?_, ?_, ?_, ?_, ?_, ?_, ?_, ?_, ?_, ?_⟩ <;> rfl

/-! ## Units (95_test_vectors.md sections 2.1 to 2.7) -/

theorem test_sbox_ex1 : sboxRead ex1 0x0 = 0xE ∧ sboxRead ex1 0xA = 0x6 ∧ sboxRead ex1 0xF = 0x7 := by decide

theorem test_sboxInv_ex1 : sboxInvRead ex1 0x1 = 0x3 ∧ sboxInvRead ex1 0x7 = 0xF ∧ sboxInvRead ex1 0xF = 0x5 := by decide

theorem test_sboxInv_ex2 : sboxInvRead ex2 0x0 = 0x5 ∧ sboxInvRead ex2 0x8 = 0xB ∧ sboxInvRead ex2 0xF = 0xA := by decide

theorem test_rotl : rotl32 0x80000001 31 = 0xC0000000 ∧ rotl32 0xA1B2C3D4 10 = 0xCB0F5286 ∧ rotl32 0x80000001 0 = 0x80000001
    ∧ rotl32 0x00000001 32 = 0x00000001 := by decide

theorem test_rotr : rotr32 0x12345678 4 = 0x81234567 ∧ rotr32 0xA1B2C3D4 5 = 0xA50D961E ∧ rotr32 0x12345678 0 = 0x12345678 := by
  decide

theorem test_keysched : keyschedUnit 0xA1B2C3D4 = .subkeys 0xA1B2C3D4 0x36587A94 0xCB0F5286
    ∧ keyschedUnit 0x80000000 = .subkeys 0x80000000 0x00000010 0x00000200 := by decide

theorem test_sub : subUnit ex1 0xDEADBEEF 0xCAFEBABE = 0x42F1E2F4 ∧ subUnit ex2 0x0000000F 0xF0000000 = 0x2CCCCCC2 := by decide

theorem test_subinv : subInvUnit ex1 0x00000000 0xA1B2C3D4 = 0x4F5C2D3A
    ∧ subInvUnit ex2 0xDEADBEEF 0xCAFEBABE = 0xB3998324 := by decide

theorem test_perm : permUnit 0x12345678 0xA1B2C3D4 = 0x67812345 ∧ permUnit 0x12345678 0xFFFFFFE0 = 0x12345678
    ∧ permUnit 0x80000001 0x0000001F = 0xC0000000 := by decide

theorem test_perminv : permInvUnit 0xDEADBEEF 0x3656789A = 0xAB6FBBF7 ∧ permInvUnit 0x12345678 0x00000000 = 0x12345678 := by
  decide

theorem test_round_enc : roundUnit ex1 .encrypt 0xA1B2C3D4 1 0x19264CD5 = 0xB24D7801
    ∧ roundUnit ex2 .encrypt 0x80000000 1 0x12345678 = 0x0AA356B9 := by decide

theorem test_round_dec : roundUnit ex1 .decrypt 0xA1B2C3D4 0 0x8B758E22 = 0xB24D7801
    ∧ roundUnit ex1 .decrypt 0xA1B2C3D4 2 0x19264CD5 = 0x00000000 := by decide

theorem test_enc_ex1 : encBlock ex1 0x00000000 0xA1B2C3D4 = 0x8B758E22 := by decide

theorem test_enc_ex2 : encBlock ex2 0x12345678 0xA1B2C3D4 = 0x0A63659B := by decide

theorem test_dec_ex1 : decBlock ex1 0x00000000 0xA1B2C3D4 = 0xEFBEDD34 := by decide

theorem test_dec_ex2 : decBlock ex2 0xDEADBEEF 0xCAFEBABE = 0xC0E55F9E := by decide

/-! ## The pipeline (section 2.8) -/

/-- One step on a small state: what `exec` answers for `ENC`, seen through the field it writes. -/
theorem test_exec_enc_enters_stage1 :
    ∃ t, exec (.enc 0xA1B2C3D4 0) State.reset = .next t ∧ t.v1 = true ∧ t.v2 = false ∧ t.outValid = false :=
  ⟨_, rfl, rfl, rfl, rfl⟩

/-- `(some (0, K, 0x19264CD5), none, none)` and `NOP` give `(none, some (0, K, 0xB24D7801), none)` (under `EX1`). -/
theorem test_advance_nop :
    ({ State.reset with s1 := some ⟨.encrypt, 0xA1B2C3D4, 0x19264CD5⟩ }.advance ex1 none).s2
      = some ⟨.encrypt, 0xA1B2C3D4, 0xB24D7801⟩ := by decide

/-- Program P2, cycle 4: three commands in flight, the fourth on the ports. -/
theorem test_advance_p2 :
    let s := { State.reset with
      s1 := some ⟨.encrypt, 0, 0x242D2122⟩, s2 := some ⟨.decrypt, 0xCAFEBABE, 0x9F71C372⟩, s3 := some 0xF9B15A6E }
    let t := s.advance ex1 (some ⟨.decrypt, 0xA1B2C3D4, 0xF9B15A6E⟩)
    t.s1 = some ⟨.decrypt, 0xA1B2C3D4, 0xAD05EE2B⟩ ∧ t.s2 = some ⟨.encrypt, 0, 0xD2D9D4DD⟩ ∧ t.s3 = some 0x38415807 := by
  decide

/-- A reset edge with two commands in flight and an `ENC` on the ports (program P4). -/
def resetCase : State :=
  { State.reset with
    s1 := some ⟨.encrypt, 0xA1B2C3D4, 0x19264CD5⟩, s2 := some ⟨.encrypt, 0xA1B2C3D4, 0xAD05EE2B⟩
    ports := ⟨true, 1, 0, 1, 1⟩ }

theorem test_reset_discards : ∃ t, step resetCase = .next t ∧ t.s1 = none ∧ t.s2 = none ∧ t.s3 = none :=
  ⟨_, rfl, rfl, rfl, rfl⟩

/-- The host uses `block_out` while `out_valid` = 0 (10_state.md R30). -/
theorem test_host_misuse_faults : step { State.reset with take := .always } = .fault .blockOutWhileInvalid := rfl

/-! ## `PROCESS` (sections S7, S8, 2.9) -/

def abcdef : Call := ⟨[0x41, 0x42, 0x43, 0x44, 0x45, 0x46], 0xA1B2C3D4, "encrypt", [], .reset 0, []⟩

theorem test_process_abcdef :
    process ex1 abcdef = ⟨.ok [0x4E, 0xF8, 0x31, 0x7C, 0x0B, 0x75, 0xB2, 0xBE],
      [.openInput, .openOutput, .read 0, .write 0, .read 4, .write 4, .read 8, .closeInput, .closeOutput], 2,
      [0x4E, 0xF8, 0x31, 0x7C, 0x0B, 0x75, 0xB2, 0xBE]⟩ := by decide

/-- A short last chunk is padded in `decrypt` mode too: 9D 9A 92 99 98 gives 41 42 43 44 45 EE EE EE. -/
theorem test_process_decrypt_pads :
    (process ex1 ⟨[0x9D, 0x9A, 0x92, 0x99, 0x98], 0, "decrypt", [], .drain, []⟩).result
      = .ok [0x41, 0x42, 0x43, 0x44, 0x45, 0xEE, 0xEE, 0xEE] := by decide

theorem test_process_empty : (process ex1 { abcdef with input := [] }).result = .ok []
    ∧ (process ex1 { abcdef with input := [] }).commands = 0 := by decide

theorem test_process_key_first : process ex1 { abcdef with keyValue := 0x100000000, modeValue := "xyz" }
    = ⟨.error (.invalidKey 0x100000000), [], 0, []⟩ := by decide

theorem test_process_xyz : process ex1 { abcdef with modeValue := "xyz" } = ⟨.error (.invalidMode "xyz"), [], 0, []⟩ := by
  decide

/-- "read of chunk 1 fails": one command, 4 bytes written, both streams closed. -/
theorem test_process_read_fails : process ex1 { abcdef with failing := [.read 4] }
    = ⟨.error (.ioFailure (.read 4)), [.openInput, .openOutput, .read 0, .write 0, .read 4, .closeInput, .closeOutput], 1,
      [0x4E, 0xF8, 0x31, 0x7C]⟩ := by decide

/-- "write of chunk 0 fails": one command, chunk 1 is never read. -/
theorem test_process_write_fails : process ex1 { abcdef with failing := [.write 0] }
    = ⟨.error (.ioFailure (.write 0)), [.openInput, .openOutput, .read 0, .write 0, .closeInput, .closeOutput], 1, []⟩ := by
  decide

/-- "input cannot be opened": the failed open only. -/
theorem test_process_open_fails : process ex1 { abcdef with failing := [.openInput] }
    = ⟨.error (.ioFailure .openInput), [.openInput], 0, []⟩ := by decide

/-! ## `PROCESS` at the ports (45_file_block_processor.md R149, R150; 70_reset_and_hazards.md R181) -/

/-- Two chunks read ahead, the first issued: its Block 0x41424344 is on the ports and 0x45460000 is queued (R144). -/
theorem test_driver_reads_ahead :
    (Job.start { abcdef with pace := [⟨0, 2, true⟩] } 0xA1B2C3D4 .encrypt [] []).move none
      = .go { Job.start { abcdef with pace := [⟨0, 2, true⟩] } 0xA1B2C3D4 .encrypt [] [] with
              pace := [], offset := 8, queue := [0x45460000], inFlight := 1, commands := 1, trace := [.read 0, .read 4] }
          ⟨false, 1, 0, 0xA1B2C3D4, 0x41424344⟩ := by rfl

/-- A result taken in one cycle and written in a later one. -/
theorem test_driver_delays_a_write :
    let j := { Job.start abcdef 0xA1B2C3D4 .encrypt [] [] with feed := .exhausted, offset := 4, inFlight := 1, commands := 1 }
    { j with pace := [⟨0, 0, false⟩] }.move (some 0x4EF8317C)
      = .go { j with results := [0x4EF8317C], inFlight := 0 } Ports.idle
    ∧ { j with results := [0x4EF8317C], inFlight := 0 }.move none
      = .stop ⟨.ok [0x4E, 0xF8, 0x31, 0x7C], [.write 0, .closeInput, .closeOutput], 1, [0x4E, 0xF8, 0x31, 0x7C]⟩ := by
  exact ⟨rfl, rfl⟩

/-- With a command on the ports the host leaves three idle cycles, and with nothing in flight one (44_block_cipher.md R133). -/
theorem test_drain_cycles :
    { State.reset with ports := Ports.command .encrypt 1 2 }.prepareCycles .drain = (Ports.idle, [Ports.idle, Ports.idle])
    ∧ State.reset.prepareCycles .drain = (Ports.idle, []) := by decide

/-! ## Fetching: the word placed is the word run -/

theorem test_withFetchWord_runs :
    step (State.reset.withFetchWord 72 0x2A1B2C3D400000000) = exec (.enc 0xA1B2C3D4 0) (State.reset.withFetchWord 72 0x2A1B2C3D400000000).hostMove := by
  rfl

/-! ## Witnesses: the hypotheses of each statement can be met together -/

/-- A state with these ports now, these port values in the cycles to come, and the host looking at no result. -/
def atPorts (p : Ports) (later : List Ports) : State :=
  { State.reset with ports := p, agenda := later.map fun q => .cycle q .ignore }

def encCycle : Ports := Ports.command .encrypt 0xA1B2C3D4 0x00000000

def decCycle : Ports := Ports.command .decrypt 0xA1B2C3D4 0x8B758E22

theorem witness_EncodingsAreUniqueButForNop :
    decodeEncoding (.unit (.sub 1 2) (some 1)) = .ok (.subinv 1 2) ∧ Instr.subinv 1 2 ≠ .nop := ⟨rfl, by decide⟩

theorem witness_OpcodeRowsAreExclusive : decodeEncoding (encode (.round .decrypt 1 2 3)) = .ok (.round .decrypt 1 2 3) := by rfl

theorem witness_StepRunsTheDecodedCommand :
    (atPorts encCycle []).safe ∧ (atPorts encCycle []).ports.rst = false
    ∧ decode (atPorts encCycle []).ports.word = .enc 0xA1B2C3D4 0 :=
  ⟨fun h => absurd h (by decide), rfl, by decide⟩

theorem witness_PipelineStepFollowsTheRule :
    State.reset.safe ∧ resetCase.safe ∧ { State.reset with s3 := some 1, take := .always }.safe
    ∧ { State.reset with s3 := some 1 }.s3 = some 1 ∧ State.reset.s3 = none :=
  ⟨fun h => absurd h (by decide), fun h => absurd h (by decide), fun _ => rfl, rfl, rfl⟩

theorem witness_ResetEdgeIgnoresTheCommand : resetCase.safe := fun h => absurd h (by decide)

theorem witness_ValidBitsShift :
    (∃ t, step resetCase = .next t ∧ resetCase.ports.rst = true)
    ∧ (∃ t, step (atPorts encCycle []) = .next t ∧ (atPorts encCycle []).ports.rst = false) :=
  ⟨⟨_, rfl, rfl⟩, ⟨_, rfl, rfl⟩⟩

theorem witness_ConfigurationsAreTheBijections :
    Function.Bijective (fun i : Nibble => tableEx1[i.toNat]) ∧ ¬ Function.Bijective (fun i : Nibble => tableBad[i.toNat]) :=
  ⟨⟨sboxRead_injective ex1, sboxRead_surjective ex1⟩, fun h => absurd (@h.1 0xE 0xF (by decide)) (by decide)⟩

theorem witness_RotateLeftMovesEveryBit : 31 < 32 ∧ 64 % 32 = 0 := by decide

theorem witness_PermutationRotatesBySubkeyBits : (0xFFFFFFE0 : Word).extractLsb' 0 5 = 0 := by decide

/-- A command with no reset in its cycle or the next two, each direction. -/
theorem witness_ResultAppearsThreeCyclesLater (p : Ports) (hp : p = encCycle ∨ p = decCycle) :
    ∃ s0 s1 s2 s3, step s0 = .next s1 ∧ step s1 = .next s2 ∧ step s2 = .next s3
      ∧ s0.ports = p ∧ s0.ports.rst = false ∧ s1.ports.rst = false ∧ s2.ports.rst = false ∧ s0.ports.inValid = 1 := by
  rcases hp with rfl | rfl <;>
    exact ⟨atPorts _ [decCycle, encCycle], _, _, _, rfl, rfl, rfl, rfl, rfl, rfl, rfl, rfl⟩

theorem witness_modes : encCycle.mode = 0 ∧ decCycle.mode = 1 := by decide

/-- A command with a reset two cycles later: the last cycle in which a reset discards it. -/
theorem witness_ResetDiscardsCommandsInFlight :
    (∃ s0 s1 s2 s3, step s0 = .next s1 ∧ step s1 = .next s2 ∧ step s2 = .next s3
      ∧ s0.ports.inValid = 1 ∧ s0.ports.rst = false ∧ s1.ports.rst = false ∧ s2.ports.rst = true)
    ∧ { State.reset with s3 := some 1 }.s3 = some 1 ∧ (∃ t, step resetCase = .next t ∧ resetCase.ports.rst = true) :=
  ⟨⟨atPorts encCycle [encCycle, Ports.reset], _, _, _, rfl, rfl, rfl, rfl, rfl, rfl, rfl⟩, rfl, ⟨_, rfl, rfl⟩⟩

theorem witness_ResultDependsOnItsCommandAlone :
    ∃ s0 s1 s2 s3 t0 t1 t2 t3, step s0 = .next s1 ∧ step s1 = .next s2 ∧ step s2 = .next s3
      ∧ step t0 = .next t1 ∧ step t1 = .next t2 ∧ step t2 = .next t3 ∧ s0.ports = t0.ports
      ∧ s1.ports.rst = false ∧ s2.ports.rst = false ∧ t1.ports.rst = false ∧ t2.ports.rst = false
      ∧ s0 ≠ t0 ∧ s1.ports ≠ t1.ports :=
  ⟨atPorts encCycle [decCycle], _, _, _, { atPorts encCycle [] with s1 := some ⟨.decrypt, 1, 2⟩, s3 := some 7 }, _, _, _,
    rfl, rfl, rfl, rfl, rfl, rfl, rfl, rfl, rfl, rfl, rfl, by decide, by decide⟩

theorem witness_DrainEmptiesThePipeline :
    ∃ s0 s1 s2 s3, step s0 = .next s1 ∧ step s1 = .next s2 ∧ step s2 = .next s3
      ∧ s0.ports.rst = false ∧ s1.ports.rst = false ∧ s2.ports.rst = false
      ∧ s0.ports.inValid = 0 ∧ s1.ports.inValid = 0 ∧ s2.ports.inValid = 0 ∧ s0.v1 = true :=
  ⟨{ State.reset with s1 := some ⟨.encrypt, 1, 2⟩ }, _, _, _, rfl, rfl, rfl, rfl, rfl, rfl, rfl, rfl, rfl, rfl⟩

/-- Program P4: two commands, a reset, a command and its drain, from an arbitrary state with a reset on the ports. -/
def p4 : List Ports := [encCycle, encCycle, Ports.reset, encCycle] ++ Line.drain.cycles

def p4Start : State :=
  { atPorts Ports.reset p4 with s1 := some ⟨.decrypt, 1, 2⟩, s2 := some ⟨.encrypt, 3, 4⟩, s3 := some 5 }

theorem witness_RunDeliversResultsInCommandOrder :
    p4Start.driver = .idle ∧ p4Start.take = .ignore ∧ p4Start.ports.rst = true
    ∧ p4Start.agenda = p4.map (fun p => .cycle p .ignore) ∧ (delivered ex1 p4).length = 1 := by decide

theorem witness_HostPlaysItsAgenda :
    (atPorts encCycle [decCycle]).driver = .idle ∧ (atPorts encCycle [decCycle]).safe
    ∧ (atPorts encCycle [decCycle]).agenda = .cycle decCycle .ignore :: [] ∧ (atPorts encCycle []).agenda = [] :=
  ⟨rfl, fun h => absurd h (by decide), rfl, rfl⟩

/-- A result presented while the host looks away, and one it takes. -/
theorem witness_ResultMustBeTakenInItsCycle :
    (∃ t, step { State.reset with s3 := some 1 } = .next t) ∧ { State.reset with s3 := some 1 }.driver = .idle
    ∧ (∃ t, step { State.reset with s3 := some 1, take := .whenValid } = .next t ∧ t.taken = [1]) :=
  ⟨⟨_, rfl⟩, rfl, ⟨_, rfl, rfl⟩⟩

/-- A host about to call `PROCESS`. -/
def calling (c : Call) : State := { State.reset with agenda := [.process c] }

theorem witness_InvalidKeyBeforeAnything :
    let c := { abcdef with keyValue := 0x100000000 }
    (calling c).driver = .idle ∧ (calling c).safe ∧ (calling c).agenda = .process c :: []
    ∧ ¬ (0 ≤ c.keyValue ∧ c.keyValue ≤ 0xFFFFFFFF) :=
  ⟨rfl, fun h => absurd h (by decide), rfl, by decide⟩

theorem witness_InvalidModeBeforeAnything :
    let c := { abcdef with keyValue := 0xFFFFFFFF, modeValue := "xyz" }
    (calling c).driver = .idle ∧ (calling c).safe ∧ (calling c).agenda = .process c :: []
    ∧ (0 ≤ c.keyValue ∧ c.keyValue ≤ 0xFFFFFFFF) ∧ c.modeValue ≠ "encrypt" ∧ c.modeValue ≠ "decrypt" :=
  ⟨rfl, fun h => absurd h (by decide), rfl, by decide, by decide, by decide⟩

theorem witness_AcceptedProcessPreparesTheCoreFirst :
    (calling abcdef).driver = .idle ∧ (calling abcdef).safe ∧ (calling abcdef).agenda = .process abcdef :: []
    ∧ (0 ≤ abcdef.keyValue ∧ abcdef.keyValue ≤ 0xFFFFFFFF) ∧ (abcdef.modeValue = "encrypt" ∨ abcdef.modeValue = "decrypt")
    ∧ StreamOp.openInput ∉ abcdef.failing ∧ StreamOp.openOutput ∉ abcdef.failing :=
  ⟨rfl, fun h => absurd h (by decide), rfl, by decide, by decide, by decide, by decide⟩

theorem witness_AcceptedProcess_prepares : abcdef.prepare = .reset 0 ∧ { abcdef with prepare := .drain }.prepare = .drain :=
  ⟨rfl, rfl⟩

/-- A `PROCESS` in its reset cycle, with blocks of an earlier run in the stages. -/
def starting : State :=
  { State.reset with
    driver := .running (Job.start abcdef 0xA1B2C3D4 .encrypt [] []), ports := Ports.reset
    s1 := some ⟨.decrypt, 1, 2⟩, s2 := some ⟨.encrypt, 3, 4⟩, s3 := some 5 }

theorem starting_inv : starting.Inv :=
  ⟨rfl, by decide, rfl, rfl, by decide, .inl ⟨rfl, rfl, by decide, by decide, rfl⟩⟩

/-- The invariant is met by a state in which a `PROCESS` runs, not only by one at rest. -/
theorem witness_EveryStepKeepsTheDriverInvariant :
    ∃ s t j, s.driver = .running j ∧ s.Inv ∧ step s = .next t :=
  ⟨starting, _, _, rfl, starting_inv, rfl⟩

theorem witness_FirstCommandFindsThePipelineEmpty :
    ∃ s t j j', s.Inv ∧ s.driver = .running j ∧ step s = .next t ∧ t.driver = .running j' ∧ j.commands = 0 ∧ j'.commands ≠ 0 :=
  ⟨starting, _, _, _, starting_inv, rfl, rfl, rfl, rfl, by decide⟩

theorem witness_ProcessAtThePortsIsTheProcedure :
    let c := { abcdef with prepare := .drain, pace := [⟨0, 2, false⟩, ⟨0, 0, true⟩], failing := [.write 4] }
    (calling c).driver = .idle ∧ (calling c).safe ∧ (calling c).agenda = .process c :: [] :=
  ⟨rfl, fun h => absurd h (by decide), rfl⟩

theorem witness_ProcessTransformsEveryChunk :
    boundary abcdef = .ok (0xA1B2C3D4, .encrypt) ∧ abcdef.failing = [] := by decide

theorem witness_DecryptedStreamIsThePaddedInput :
    abcdef.failing = [] ∧ (0 ≤ abcdef.keyValue ∧ abcdef.keyValue ≤ 0xFFFFFFFF) ∧ abcdef.modeValue = "encrypt" := by decide

/-- Each clause of the statement about failures: an open, the read that finds the input exhausted, and the last write. -/
theorem witness_FirstFailureEndsTheProcess :
    boundary { abcdef with failing := [.read 8] } = .ok (0xA1B2C3D4, .encrypt)
    ∧ StreamOp.openInput ∈ [StreamOp.openInput]
    ∧ (StreamOp.openInput ∉ [StreamOp.openOutput] ∧ StreamOp.openOutput ∈ [StreamOp.openOutput])
    ∧ (∀ m, m < 2 → StreamOp.read (4 * m) ∉ [StreamOp.read 8] ∧ StreamOp.write (4 * m) ∉ [StreamOp.read 8])
    ∧ 2 ≤ (abcdef.input.length + 3) / 4 ∧ StreamOp.read (4 * 2) ∈ [StreamOp.read 8]
    ∧ 1 < (abcdef.input.length + 3) / 4 ∧ StreamOp.read (4 * 1) ∉ [StreamOp.write 4]
    ∧ StreamOp.write (4 * 1) ∈ [StreamOp.write 4] := by decide

/-- A process that opens both streams, so that both are closed. -/
theorem witness_CloseChangesNothingAndHappensAlways :
    StreamOp.openInput ∈ (process ex1 abcdef).trace ∧ StreamOp.openInput ∉ abcdef.failing
    ∧ StreamOp.openOutput ∈ (process ex1 abcdef).trace ∧ StreamOp.openOutput ∉ abcdef.failing := by decide

end Sys2Proof.Tests
end

section
/-! PROOFS. The configuration of the hardware (00_scope.md R9): every table that is a bijection is the table of a permutation of
the nibbles, with the two lookups as its two directions. -/

namespace Sys2Proof.Machine

/-- Two configurations with the same lookups are the same table. -/
theorem sbox_eq_of_sboxRead_eq {T U : Sbox} (h : ∀ i, sboxRead T i = sboxRead U i) : T = U := by
  have htable : T.table = U.table := by
    refine Vector.ext fun i hi => ?_
    have hidx : (BitVec.ofNat 4 i).toNat = i := Nat.mod_eq_of_lt hi
    simpa [sboxRead, hidx] using h (BitVec.ofNat 4 i)
  cases T
  cases U
  cases htable
  rfl

/-- The lookup in the table of a permutation is the permutation. -/
@[simp] theorem sboxRead_ofPerm (e : Equiv.Perm Nibble) (i : Nibble) : sboxRead (Sbox.ofPerm e) i = e i := by
  simp [sboxRead, Sbox.ofPerm]

/-- The permutation of the nibbles that a configuration tabulates: `SBOX` one way, `SBOX_INV` the other (R81). -/
def sboxPerm (T : Sbox) : Equiv.Perm Nibble where
  toFun := sboxRead T
  invFun := sboxInvRead T
  left_inv v := (sboxInvRead_eq_iff T (sboxRead T v) v).mpr rfl
  right_inv i := (sboxInvRead_eq_iff T i (sboxInvRead T i)).mp rfl

/-- A configuration is the table of its own permutation. -/
theorem ofPerm_sboxPerm (T : Sbox) : Sbox.ofPerm (sboxPerm T) = T :=
  sbox_eq_of_sboxRead_eq fun i => sboxRead_ofPerm (sboxPerm T) i

/-- Settles O18: the permutation is the one whose directions are the two lookups. -/
theorem everyConfigurationIsAPermutationTable : Obligations.EveryConfigurationIsAPermutationTable :=
  fun T => ⟨sboxPerm T, (ofPerm_sboxPerm T).symm, fun _ => ⟨rfl, rfl⟩⟩

end Sys2Proof.Machine
end

section
/-! PROOFS. The state of the core (10_state.md): how the three valid bits move at a clock edge (R25), and what holds of the state
after reset (R29). -/

namespace Sys2Proof.Machine

/-- A command is sampled exactly when `in_valid` = 1 and `rst` = 0 (44_block_cipher.md R130). -/
theorem portCommand_isSome_iff (p : Ports) : (portCommand p).isSome = true ↔ p.rst = false ∧ p.inValid = 1 := by
  have bit : ∀ b : BitVec 1, b ≠ 0 ↔ b = 1 := by decide
  by_cases hr : p.rst = true
  · simp [portCommand, hr]
  · by_cases hv : p.inValid = 0
    · simp [portCommand, hv]
    · simp [portCommand, hr, (bit _).mp hv]

/-- A reset edge clears all three valid bits (70_reset_and_hazards.md R180). -/
theorem State.valid_bits_after_reset {s t : State} (h : step s = .next t) (hr : s.ports.rst = true) :
    t.v1 = false ∧ t.v2 = false ∧ t.v3 = false := by
  obtain ⟨_, _, _, _, _, ⟨_, h1, h2, h3⟩ | ⟨hr', _⟩⟩ := step_stages h
  · simp [State.v1, State.v2, State.v3, h1, h2, h3]
  · simp [hr'] at hr

/-- Any other edge moves each valid bit one stage on, behind the command on the ports (R25, 44_block_cipher.md R130). -/
theorem State.valid_bits_after_advance {s t : State} (h : step s = .next t) (hr : s.ports.rst = false) :
    t.v1 = (portCommand s.ports).isSome ∧ t.v2 = s.v1 ∧ t.v3 = s.v2 := by
  obtain ⟨_, _, _, _, _, ⟨hr', _⟩ | ⟨_, h1, h2, h3⟩⟩ := step_stages h
  · simp [hr'] at hr
  · simp [State.v1, State.v2, State.v3, h1, h2, h3]

/-- Settles O11: the two kinds of edge, and the command on the ports read bit by bit. -/
theorem validBitsShift : Obligations.ValidBitsShift := by
  intro s t h
  refine ⟨State.valid_bits_after_reset h, fun hr => ?_⟩
  obtain ⟨h1, h2, h3⟩ := State.valid_bits_after_advance h hr
  rw [h1, h2, h3, portCommand_isSome_iff]
  exact ⟨and_iff_right hr, Iff.rfl, Iff.rfl⟩

/-- Settles O12: the fields of `State.reset`, and the outputs read off stage 3 (R30). -/
theorem resetStateIsThreeBubbles : Obligations.ResetStateIsThreeBubbles :=
  ⟨rfl, rfl, rfl, rfl, rfl⟩

/-- A host at rest satisfies the invariant, whatever the stages hold (10_state.md R31). -/
theorem State.inv_of_driver_idle {s : State} (h : s.driver = .idle) : s.Inv := by
  simp [State.Inv, h]

/-- Settles O49: the host is at rest in the state after reset (log 2). -/
theorem resetHasTheDriverInvariant : Obligations.ResetHasTheDriverInvariant :=
  State.inv_of_driver_idle rfl

end Sys2Proof.Machine
end

section
/-! PROOFS. The host's streams (20_memory.md): a Block and its four bytes, big-endian (R41, R46), and the bytes one read of the input
gives (R45). -/

namespace Sys2Proof.Machine

/-! ## Blocks and bytes (R41) -/

/-- A byte appended at the least significant end. -/
theorem toNat_append_byte {n : Nat} (v : BitVec n) (b : Byte) : (v ++ b).toNat = v.toNat * 2 ^ 8 + b.toNat := by
  rw [BitVec.toNat_append, ← Nat.shiftLeft_add_eq_or_of_lt b.isLt, Nat.shiftLeft_eq]

/-- The Block of four bytes as a number. -/
theorem toNat_blockOfBytes (b0 b1 b2 b3 : Byte) :
    (blockOfBytes b0 b1 b2 b3).toNat = b0.toNat * 2 ^ 24 + b1.toNat * 2 ^ 16 + b2.toNat * 2 ^ 8 + b3.toNat := by
  rw [blockOfBytes]
  simp only [toNat_append_byte]
  omega

/-- A chunk of four bytes needs no padding (45_file_block_processor.md R144). -/
theorem blockOfChunk_four (b0 b1 b2 b3 : Byte) : blockOfChunk [b0, b1, b2, b3] = blockOfBytes b0 b1 b2 b3 := rfl

/-- A slice of a word and the byte just below it are one longer slice. -/
theorem extractLsb'_append_next_byte (v : Word) (lo len : Nat) :
    v.extractLsb' (lo + 8) len ++ v.extractLsb' lo 8 = v.extractLsb' lo (len + 8) :=
  BitVec.extractLsb'_append_extractLsb'_eq_extractLsb' rfl

/-- The four bytes of a Block make up that Block again. -/
theorem blockOfChunk_bytesOfBlock (v : Word) : blockOfChunk (bytesOfBlock v) = v := by
  rw [bytesOfBlock, blockOfChunk_four, blockOfBytes, extractLsb'_append_next_byte v 16 8,
    extractLsb'_append_next_byte v 8 16, extractLsb'_append_next_byte v 0 24]
  exact BitVec.extractLsb'_eq_self

/-- Settles O52: the Block of four bytes is their sum, and the bytes written are those whose Block is the one given. -/
theorem bytesAndBlocksAreBigEndian : Obligations.BytesAndBlocksAreBigEndian := by
  refine ⟨toNat_blockOfBytes, fun out v => ⟨_, _, _, _, rfl, ?_⟩⟩
  rw [← toNat_blockOfBytes, ← blockOfChunk_four]
  exact congrArg BitVec.toNat (blockOfChunk_bytesOfBlock v).symm

/-! ## Reading the input (R45) -/

/-- Byte `i` of a read is byte `a + i` of the input. -/
theorem getElem?_memRead (input : List Byte) (a : Nat) {i : Nat} (hi : i < 4) : (memRead input a)[i]? = input[a + i]? := by
  rw [memRead, List.getElem?_take_of_lt hi, List.getElem?_drop]

/-- Settles O51: length, bytes and emptiness of a read, one lemma each. -/
theorem memReadGivesUpToFourBytes : Obligations.MemReadGivesUpToFourBytes := by
  intro input a
  refine ⟨?_, fun i hi => getElem?_memRead input a hi, memRead_eq_nil input a⟩
  rw [length_memRead]
  omega

end Sys2Proof.Machine
end

section
/-! PROOFS. Command words and unit selection (30_encoding.md): a word read as a number, the decoder against the encoder, and the rows
of the opcode table. -/

namespace Sys2Proof

/-! ## A command word as a number (R60) -/

/-- The top bit of a word, `in_valid`, is set in its upper half. -/
theorem getLsbD_65_eq_false_iff (w : CmdWord) : w.getLsbD 65 = false ↔ w.toNat < 2 ^ 65 := by
  have hw := w.isLt
  rw [BitVec.getLsbD, Nat.testBit_eq_decide_div_mod_eq, decide_eq_false_iff_not]
  omega

/-- The bit of `mode`, the quarter a word lies in. -/
theorem getLsbD_64_eq_false_iff (w : CmdWord) : w.getLsbD 64 = false ↔ w.toNat / 2 ^ 64 % 2 = 0 := by
  rw [BitVec.getLsbD, Nat.testBit_eq_decide_div_mod_eq, decide_eq_false_iff_not]
  omega

/-- The slices a word's key and block are read from. -/
theorem key_block_slices (w : CmdWord) :
    w.extractLsb' 32 32 = BitVec.ofNat 32 (w.toNat / 2 ^ 32) ∧ w.extractLsb' 0 32 = BitVec.ofNat 32 w.toNat :=
  ⟨congrArg (BitVec.ofNat 32) (Nat.shiftRight_eq_div_pow w.toNat 32), rfl⟩

/-- Settles O2: the two bits the decoder looks at, as bounds on the word. -/
theorem decodeIsTotalInThreeRows : Obligations.DecodeIsTotalInThreeRows := by
  intro w
  obtain ⟨hkey, hblock⟩ := key_block_slices w
  have h65 := getLsbD_65_eq_false_iff w
  have h64 := getLsbD_64_eq_false_iff w
  have hw := w.isLt
  rw [decode, hkey, hblock]
  refine ⟨fun hn => ?_, fun he => ?_, fun hd => ?_⟩
  · rw [if_pos (h65.mpr (by omega))]
  · rw [if_neg (mt h65.mp (by omega)), if_pos (h64.mpr (by omega))]
  · rw [if_neg (mt h65.mp (by omega)), if_neg (mt h64.mp (by omega))]

/-- A two-bit head, a key and a block, put together by shifts. -/
theorem toNat_head_key_block (a : BitVec 2) (key block : Word) :
    (a ++ key ++ block : BitVec (2 + 32 + 32)).toNat = (a.toNat <<< 64) ||| (key.toNat <<< 32) ||| block.toNat := by
  rw [BitVec.toNat_append, BitVec.toNat_append, Nat.shiftLeft_or_distrib, ← Nat.shiftLeft_add]

/-- The same as a sum. -/
theorem toNat_head_key_block_eq_sum (a : BitVec 2) (key block : Word) :
    (a ++ key ++ block : BitVec (2 + 32 + 32)).toNat = a.toNat * 2 ^ 64 + key.toNat * 2 ^ 32 + block.toNat := by
  rw [BitVec.toNat_append, ← Nat.shiftLeft_add_eq_or_of_lt block.isLt, BitVec.toNat_append,
    ← Nat.shiftLeft_add_eq_or_of_lt key.isLt, Nat.shiftLeft_eq, Nat.shiftLeft_eq]
  omega

theorem toNat_encWord (key block : Word) :
    (encWord key block).toNat = 2 * 2 ^ 64 + key.toNat * 2 ^ 32 + block.toNat :=
  toNat_head_key_block_eq_sum 2#2 key block

theorem toNat_decWord (key block : Word) :
    (decWord key block).toNat = 3 * 2 ^ 64 + key.toNat * 2 ^ 32 + block.toNat :=
  toNat_head_key_block_eq_sum 3#2 key block

/-! ## Assembler lines (R67, R68) -/

/-- The four fields of a word make up that word again. -/
@[simp] theorem Ports.word_ofWord (w : CmdWord) : (Ports.ofWord w).word = w := by
  have hmode : w.extractLsb' 65 1 ++ w.extractLsb' 64 1 = w.extractLsb' 64 2 :=
    BitVec.extractLsb'_append_extractLsb'_eq_extractLsb' rfl
  have hkey : w.extractLsb' 64 2 ++ w.extractLsb' 32 32 = w.extractLsb' 32 34 :=
    BitVec.extractLsb'_append_extractLsb'_eq_extractLsb' rfl
  have hblock : w.extractLsb' 32 34 ++ w.extractLsb' 0 32 = w.extractLsb' 0 66 :=
    BitVec.extractLsb'_append_extractLsb'_eq_extractLsb' rfl
  rw [Ports.word, Ports.ofWord, hmode, hkey, hblock, BitVec.extractLsb'_eq_self]

/-- Settles O3: each line's cycle holds its word on the ports. -/
theorem assemblerLinesGiveTheirWords : Obligations.AssemblerLinesGiveTheirWords := by
  refine ⟨⟨_, rfl, rfl⟩, ⟨_, rfl, rfl, ?_⟩, fun k b => ⟨_, rfl, rfl, ?_⟩, fun k b => ⟨_, rfl, rfl, ?_⟩, rfl⟩
  · rw [Ports.word_ofWord]
    rfl
  · rw [Ports.word_ofWord]
    exact toNat_head_key_block 2#2 k b
  · rw [Ports.word_ofWord]
    exact toNat_head_key_block 3#2 k b

/-! ## Decoding undoes encoding (R61, R66, R67) -/

/-- The key and the block are read back from the number they were put together in, whatever the head. -/
theorem fields_of_sum (a : Nat) (key block : Word) :
    BitVec.ofNat 32 ((a * 2 ^ 64 + key.toNat * 2 ^ 32 + block.toNat) / 2 ^ 32) = key
    ∧ BitVec.ofNat 32 (a * 2 ^ 64 + key.toNat * 2 ^ 32 + block.toNat) = block := by
  have hk := key.isLt
  have hb := block.isLt
  constructor <;> refine BitVec.eq_of_toNat_eq ?_ <;> rw [BitVec.toNat_ofNat]
  · omega
  · omega

@[simp] theorem decode_nopWord : decode nopWord = .nop := by decide

@[simp] theorem decode_encWord (key block : Word) : decode (encWord key block) = .enc key block := by
  obtain ⟨-, henc, -⟩ := decodeIsTotalInThreeRows (encWord key block)
  obtain ⟨hkey, hblock⟩ := fields_of_sum 2 key block
  rw [toNat_encWord, hkey, hblock] at henc
  exact henc (by omega)

@[simp] theorem decode_decWord (key block : Word) : decode (decWord key block) = .dec key block := by
  obtain ⟨-, -, hdec⟩ := decodeIsTotalInThreeRows (decWord key block)
  obtain ⟨hkey, hblock⟩ := fields_of_sum 3 key block
  rw [toNat_decWord, hkey, hblock] at hdec
  exact hdec (by omega)

@[simp] theorem Mode.ofBit_bit (dir : Mode) : Mode.ofBit dir.bit = dir := by cases dir <;> rfl

/-- Settles O4: a command by its word, a unit by its pair and select bit. -/
theorem decodeUndoesEncode : Obligations.DecodeUndoesEncode := by
  intro i
  cases i
  case nop => exact congrArg Except.ok decode_nopWord
  case enc key block => exact congrArg Except.ok (decode_encWord key block)
  case dec key block => exact congrArg Except.ok (decode_decWord key block)
  case round dir key s d => rw [encode, decodeEncoding, selectUnit, Mode.ofBit_bit]
  all_goals rfl

/-! ## Encoding undoes decoding, but for `NOP` (R61, R64, R66) -/

/-- A word is the `NOP` by bit 65, or the canonical word of the `ENC` or `DEC` it decodes to. -/
theorem decode_cases (w : CmdWord) :
    (w.getLsbD 65 = false ∧ decode w = .nop)
    ∨ (∃ key block, w = encWord key block ∧ decode w = .enc key block)
    ∨ (∃ key block, w = decWord key block ∧ decode w = .dec key block) := by
  obtain ⟨hnop, henc, hdec⟩ := decodeIsTotalInThreeRows w
  have hw := w.isLt
  by_cases hn : w.toNat < 0x20000000000000000
  · exact .inl ⟨(getLsbD_65_eq_false_iff w).mpr hn, hnop hn⟩
  · by_cases he : w.toNat < 0x30000000000000000
    · refine .inr (.inl ⟨_, _, BitVec.eq_of_toNat_eq ?_, henc ⟨by omega, he⟩⟩)
      rw [toNat_encWord, BitVec.toNat_ofNat, BitVec.toNat_ofNat]
      omega
    · refine .inr (.inr ⟨_, _, BitVec.eq_of_toNat_eq ?_, hdec (by omega)⟩)
      rw [toNat_decWord, BitVec.toNat_ofNat, BitVec.toNat_ofNat]
      omega

theorem decode_eq_nop_iff (w : CmdWord) : decode w = .nop ↔ w.getLsbD 65 = false := by
  rw [getLsbD_65_eq_false_iff]
  obtain ⟨hbit, hdec⟩ | ⟨key, block, rfl, hdec⟩ | ⟨key, block, rfl, hdec⟩ := decode_cases w
  · exact iff_of_true hdec ((getLsbD_65_eq_false_iff w).mp hbit)
  · simp only [hdec, toNat_encWord, reduceCtorEq, false_iff]
    omega
  · simp only [hdec, toNat_decWord, reduceCtorEq, false_iff]
    omega

/-- A select bit is 0 or 1, forward or inverse (R66). -/
theorem selectBit_cases (dir : BitVec 1) : dir = 0 ∨ dir = 1 := by
  revert dir
  decide

/-- A selection with `dir` names a unit only by that unit's own encoding. -/
theorem encode_of_selectUnit {u : UnitPort} {dir : BitVec 1} {i : Instr} (h : selectUnit u dir = .ok i) :
    encode i = .unit u (some dir) := by
  cases u
  case keysched key => cases h
  all_goals obtain rfl | rfl := selectBit_cases dir <;> cases h <;> rfl

/-- An encoding is that of the instruction it decodes to, or a word that `NOP` has by bit 65. -/
theorem encoding_of_decodeEncoding {e : Encoding} {i : Instr} (h : decodeEncoding e = .ok i) :
    e = encode i ∨ i = .nop ∧ ∃ w : CmdWord, e = .cmd w ∧ w.getLsbD 65 = false := by
  cases e with
  | cmd w =>
    obtain rfl : decode w = i := Except.ok.inj h
    obtain ⟨hbit, hdec⟩ | ⟨key, block, rfl, hdec⟩ | ⟨key, block, rfl, hdec⟩ := decode_cases w
    · exact .inr ⟨hdec, w, rfl, hbit⟩
    · exact .inl (by rw [hdec, encode])
    · exact .inl (by rw [hdec, encode])
  | unit u select =>
    refine .inl ?_
    cases select with
    | some dir => exact (encode_of_selectUnit h).symm
    | none =>
      cases u
      case keysched key => cases h; rfl
      all_goals cases h

/-- Settles O5: the words of `NOP` by bit 65 are the only encodings that `encode` does not give. -/
theorem encodingsAreUniqueButForNop : Obligations.EncodingsAreUniqueButForNop := by
  refine ⟨fun e i h hi => ?_, decode_eq_nop_iff⟩
  obtain he | ⟨hnop, -⟩ := encoding_of_decodeEncoding h
  · exact he
  · exact absurd hnop hi

/-- Settles O6: a command is decoded from its own word, and a word decodes to a command. -/
theorem portIssuesExactlyTheCommands : Obligations.PortIssuesExactlyTheCommands := by
  intro i
  constructor
  · intro hi
    cases i
    case nop => exact ⟨nopWord, decode_nopWord⟩
    case enc key block => exact ⟨encWord key block, decode_encWord key block⟩
    case dec key block => exact ⟨decWord key block, decode_decWord key block⟩
    all_goals cases hi
  · rintro ⟨w, rfl⟩
    obtain ⟨-, h⟩ | ⟨_, _, -, h⟩ | ⟨_, _, -, h⟩ := decode_cases w
    all_goals rw [h, Instr.issuable]

/-! ## The rows of the opcode table (R61, R66) -/

/-- The thirteen rows of spec/opcode_table.json, in its order. -/
def opcodeTable : List Row :=
  [Instr.nop.row, (Instr.enc 0 0).row, (Instr.dec 0 0).row, (Instr.sbox 0).row, (Instr.sboxInv 0).row,
    (Instr.rotl32 0 0).row, (Instr.rotr32 0 0).row, (Instr.keysched 0).row, (Instr.sub 0 0).row, (Instr.subinv 0 0).row,
    (Instr.perm 0 0).row, (Instr.perminv 0 0).row, (Instr.round .encrypt 0 0 0).row]

/-- An instruction's row is one of the thirteen: it does not depend on the operands. -/
theorem row_mem_opcodeTable (i : Instr) : i.row ∈ opcodeTable := by
  cases i <;> simp [opcodeTable, Instr.row]

/-- Two rows that can admit one encoding: they speak of the same ports, and neither fixes a bit to another value than the other
does. A row of width 0 has no bit. -/
def Row.Overlaps (r r' : Row) : Prop :=
  r.pair = r'.pair ∧ r.width = r'.width ∧ (r.width = 0 ∨ r.pattern &&& r'.mask = r'.pattern &&& r.mask)

/-- A pattern matched under two masks agrees with itself where both look. -/
theorem patterns_agree {x m p m' p' : Nat} (h : x &&& m = p) (h' : x &&& m' = p') : p &&& m' = p' &&& m := by
  rw [← h, ← h', Nat.and_right_comm]

/-- Rows that admit one encoding overlap. -/
theorem Row.overlaps_of_admits {r r' : Row} {e : Encoding} (h : r.admits e = true) (h' : r'.admits e = true) :
    r.Overlaps r' := by
  cases e with
  | cmd w =>
    simp only [Row.admits, Bool.and_eq_true, Option.isNone_iff_eq_none, beq_iff_eq] at h h'
    obtain ⟨⟨hp, hw⟩, hm⟩ := h
    obtain ⟨⟨hp', hw'⟩, hm'⟩ := h'
    exact ⟨hp.trans hp'.symm, hw.trans hw'.symm, .inr (patterns_agree hm hm')⟩
  | unit u select =>
    cases select with
    | some dir =>
      simp only [Row.admits, Bool.and_eq_true, beq_iff_eq] at h h'
      obtain ⟨⟨hp, hw⟩, hm⟩ := h
      obtain ⟨⟨hp', hw'⟩, hm'⟩ := h'
      exact ⟨hp.trans hp'.symm, hw.trans hw'.symm, .inr (patterns_agree hm hm')⟩
    | none =>
      simp only [Row.admits, Bool.and_eq_true, beq_iff_eq] at h h'
      obtain ⟨hp, hw⟩ := h
      obtain ⟨hp', hw'⟩ := h'
      exact ⟨hp.trans hp'.symm, hw.trans hw'.symm, .inl hw⟩

/-- No two of the thirteen rows overlap. -/
theorem opcodeTable_disjoint : ∀ r ∈ opcodeTable, ∀ r' ∈ opcodeTable, r.Overlaps r' → r = r' := by
  unfold Row.Overlaps
  decide

/-- An instruction's row admits its canonical encoding, by the lemma of its constructor. -/
theorem row_admits_encode (i : Instr) : i.row.admits (encode i) = true := by
  cases i
  case nop => exact Laws.EncodingFitsRow.nop
  case enc key block => exact Laws.EncodingFitsRow.enc key block
  case dec key block => exact Laws.EncodingFitsRow.dec key block
  case sbox i => exact Laws.EncodingFitsRow.sbox i
  case sboxInv i => exact Laws.EncodingFitsRow.sboxInv i
  case rotl32 x n => exact Laws.EncodingFitsRow.rotl32 x n
  case rotr32 x n => exact Laws.EncodingFitsRow.rotr32 x n
  case keysched key => exact Laws.EncodingFitsRow.keysched key
  case sub block subkey => exact Laws.EncodingFitsRow.sub block subkey
  case subinv block subkey => exact Laws.EncodingFitsRow.subinv block subkey
  case perm block subkey => exact Laws.EncodingFitsRow.perm block subkey
  case perminv block subkey => exact Laws.EncodingFitsRow.perminv block subkey
  case round dir key s d => exact Laws.EncodingFitsRow.round dir key s d

/-- The row of `NOP` looks at bit 65 alone. -/
theorem nop_row_admits {w : CmdWord} (h : w.getLsbD 65 = false) : Instr.nop.row.admits (.cmd w) = true := by
  have hm : w.toNat &&& 0x20000000000000000 = 0 := by
    rw [show (0x20000000000000000 : Nat) = 2 ^ 65 from rfl, Nat.and_two_pow, show w.toNat.testBit 65 = false from h,
      Bool.toNat_false, Nat.zero_mul]
  simp [Instr.row, Row.admits, hm]

/-- The row of the instruction that an encoding decodes to admits that encoding. -/
theorem row_admits_of_decodeEncoding {e : Encoding} {i : Instr} (h : decodeEncoding e = .ok i) : i.row.admits e = true := by
  obtain rfl | ⟨rfl, w, rfl, hbit⟩ := encoding_of_decodeEncoding h
  · exact row_admits_encode i
  · exact nop_row_admits hbit

/-- Settles O7: the instruction's own row admits the encoding, and two rows of the table that do are one. -/
theorem opcodeRowsAreExclusive : Obligations.OpcodeRowsAreExclusive := by
  intro e i j h
  have hi := row_admits_of_decodeEncoding h
  constructor
  · intro hj
    exact opcodeTable_disjoint _ (row_mem_opcodeTable j) _ (row_mem_opcodeTable i) (Row.overlaps_of_admits hj hi)
  · intro hrow
    rwa [hrow]

/-- Settles O1: three canonical words, and a word whose bit 65 is 0. -/
theorem specWordsDecode : Obligations.SpecWordsDecode :=
  ⟨decode_encWord 0xA1B2C3D4 0x00000000, decode_decWord 0xA1B2C3D4 0x12345678, decode_nopWord,
    (decode_eq_nop_iff _).mpr (by decide)⟩

end Sys2Proof
end

section
/-! PROOFS. The tables (40_sbox_tables.md R82 to R84): which tables are configurations, and what the two lookup units put on their
outputs. -/

namespace Sys2Proof.Machine

/-- A table whose lookup is a permutation is the listing of that permutation's values, index 0 first. -/
theorem table_eq_ofFn {t : Table} {e : Equiv.Perm Nibble} (h : ∀ i : Nibble, e i = t[i.toNat]) :
    t = Vector.ofFn fun i : Fin 16 => e (BitVec.ofNat 4 i) :=
  Vector.ext fun i hi => by simp [h]

/-- Listing every value exactly once is being a bijection of the indices onto the values (R82). -/
theorem table_wellFormed_iff_bijective (t : Table) :
    t.wellFormed ↔ Function.Bijective (fun i : Nibble => t[i.toNat]) := by
  constructor
  · intro h
    exact ⟨sboxRead_injective ⟨t, h⟩, sboxRead_surjective ⟨t, h⟩⟩
  · intro h
    rw [table_eq_ofFn (e := Equiv.ofBijective _ h) fun _ => rfl]
    exact Table.ofFn_wellFormed _

/-- Settles O17: the check that `configure` makes is bijectivity. -/
theorem configurationsAreTheBijections : Obligations.ConfigurationsAreTheBijections := by
  intro t
  rw [← table_wellFormed_iff_bijective t]
  obtain ⟨hwf, hok⟩ | ⟨hwf, hrefused⟩ := configure_cases t
  · exact ⟨fun _ => ⟨⟨t, hwf⟩, hok, rfl⟩, fun hn => absurd hwf hn⟩
  · exact ⟨fun h => absurd h hwf, fun _ => hrefused⟩

/-- `SBOX` puts the entry on the unit's output (R83). -/
theorem exec_sbox (i : Nibble) (s : State) : exec (.sbox i) s = .next (s.setUnitOut (.nibble (sboxRead Config.sbox i))) := rfl

/-- `SBOX_INV` puts the index found on the unit's output (R84). -/
theorem exec_sboxInv (i : Nibble) (s : State) :
    exec (.sboxInv i) s = .next (s.setUnitOut (.nibble (sboxInvRead Config.sbox i))) := rfl

/-- Settles O16: the index is the inverse lookup's, the only one with that entry. -/
theorem sboxInvUnitFindsTheUniqueIndex : Obligations.SboxInvUnitFindsTheUniqueIndex := by
  intro i s
  refine ⟨sboxInvRead Config.sbox i, exec_sboxInv i s, fun u => ?_⟩
  calc Config.sbox.table[u.toNat] = i
      ↔ sboxInvRead Config.sbox i = u := (sboxInvRead_eq_iff Config.sbox i u).symm
    _ ↔ u = sboxInvRead Config.sbox i := eq_comm

/-- Settles O15: the lookup reads the table at the index, and only the record of the unit's output is written. -/
theorem sboxUnitReadsItsEntry : Obligations.SboxUnitReadsItsEntry :=
  exec_sbox

end Sys2Proof.Machine
end

section
/-! PROOFS. Rotation and the key schedule (41_key_schedule.md R90 to R92, R96): where each bit goes, the laws of rotation, and the
three subkeys. -/

namespace Sys2Proof.Machine

/-! ## The bit form of rotation (R90, R91) -/

/-- Rotating left moves bit `i` to place `(i + n) mod 32`. -/
theorem getLsbD_rotl32_at_target (x : Word) (n : Nat) {i : Nat} (hi : i < 32) :
    (rotl32 x n).getLsbD ((i + n) % 32) = x.getLsbD i := by
  have hback : ((i + n) % 32 + (32 - n % 32)) % 32 = i := by omega
  rw [getLsbD_rotl32 x n _ (Nat.mod_lt _ (by decide)), hback]

/-- A multiple of 32 is taken by the guard. -/
theorem rotl32_of_mod_eq_zero (x : Word) {n : Nat} (h : n % 32 = 0) : rotl32 x n = x := if_pos h

theorem rotr32_of_mod_eq_zero (x : Word) {n : Nat} (h : n % 32 = 0) : rotr32 x n = x := if_pos h

/-- `ROTL32` puts the rotated word on the unit's output. -/
theorem exec_rotl32 (x : Word) (n : Nat) (s : State) : exec (.rotl32 x n) s = .next (s.setUnitOut (.word (rotl32 x n))) := rfl

/-- `ROTR32` puts the rotated word on the unit's output. -/
theorem exec_rotr32 (x : Word) (n : Nat) (s : State) : exec (.rotr32 x n) s = .next (s.setUnitOut (.word (rotr32 x n))) := rfl

/-- Settles O19, by the bit form of `rotl32` and its guard. -/
theorem rotateLeftMovesEveryBit : Obligations.RotateLeftMovesEveryBit := fun x n s =>
  ⟨rotl32 x n, exec_rotl32 x n s, fun _ hi => getLsbD_rotl32_at_target x n hi, rotl32_of_mod_eq_zero x⟩

/-- Settles O20, by the bit form of `rotr32` and its guard. -/
theorem rotateRightMovesEveryBit : Obligations.RotateRightMovesEveryBit := by
  intro x n s
  refine ⟨rotr32 x n, exec_rotr32 x n s, fun i hi => ?_, rotr32_of_mod_eq_zero x⟩
  rw [getLsbD_rotr32 x n i hi, Nat.add_mod_mod]

/-! ## The laws of rotation (R96) -/

/-- Rotating left is rotating right by what is missing to 32. -/
theorem rotl32_eq_rotr32 (x : Word) (n : Nat) : rotl32 x n = rotr32 x ((32 - n % 32) % 32) := by
  refine BitVec.eq_of_getLsbD_eq fun i hi => ?_
  rw [getLsbD_rotl32 x n i hi, getLsbD_rotr32 x _ i hi, Nat.mod_mod, Nat.add_mod_mod]

@[simp] theorem rotr32_rotl32 (x : Word) (n : Nat) : rotr32 (rotl32 x n) n = x := by
  refine BitVec.eq_of_getLsbD_eq fun i hi => ?_
  rw [getLsbD_rotr32 _ n i hi, Nat.add_mod_mod, getLsbD_rotl32_at_target x n hi]

@[simp] theorem rotl32_rotr32 (x : Word) (n : Nat) : rotl32 (rotr32 x n) n = x := by
  refine BitVec.eq_of_getLsbD_eq fun i hi => ?_
  have hback : ((i + (32 - n % 32)) % 32 + n % 32) % 32 = i := by omega
  rw [getLsbD_rotl32 _ n i hi, getLsbD_rotr32 x n _ (Nat.mod_lt _ (by decide)), hback]

/-- Rotations left add. -/
theorem rotl32_rotl32 (x : Word) (m n : Nat) : rotl32 (rotl32 x m) n = rotl32 x (m + n) := by
  refine BitVec.eq_of_getLsbD_eq fun i hi => ?_
  have hsum : ((i + (32 - n % 32)) % 32 + (32 - m % 32)) % 32 = (i + (32 - (m + n) % 32)) % 32 := by omega
  rw [getLsbD_rotl32 _ n i hi, getLsbD_rotl32 x m _ (Nat.mod_lt _ (by decide)), getLsbD_rotl32 x (m + n) i hi, hsum]

/-- Only the amount modulo 32 counts. -/
@[simp] theorem rotl32_mod (x : Word) (n : Nat) : rotl32 x (n % 32) = rotl32 x n := by
  simp only [rotl32, Nat.mod_mod]

theorem rotl32_xor (x y : Word) (n : Nat) : rotl32 (x ^^^ y) n = rotl32 x n ^^^ rotl32 y n := by
  refine BitVec.eq_of_getLsbD_eq fun i hi => ?_
  rw [BitVec.getLsbD_xor, getLsbD_rotl32 _ n i hi, getLsbD_rotl32 x n i hi, getLsbD_rotl32 y n i hi, BitVec.getLsbD_xor]

/-- Settles O21, law by law. -/
theorem rotationLaws : Obligations.RotationLaws := fun x y a b =>
  ⟨rotr32_rotl32 x a, rotl32_rotr32 x a, rotl32_eq_rotr32 x a, rotl32_rotl32 x a b, (rotl32_mod x (a + b)).symm,
    rotl32_xor x y a⟩

/-! ## The key schedule (R92) -/

/-- The slice form of rotation left (R90): the low `k` bits move up, the high `m` bits come round below them. -/
theorem rotl32_eq_append_slices (x : Word) {k m : Nat} (h : k + m = 32) (hk : 0 < k) :
    rotl32 x m = (x.extractLsb' 0 k ++ x.extractLsb' k m).cast h := by
  refine BitVec.eq_of_getLsbD_eq fun i hi => ?_
  have hm : m % 32 = m := Nat.mod_eq_of_lt (by omega)
  rw [getLsbD_rotl32 x m i hi, hm, BitVec.getLsbD_cast, BitVec.getLsbD_append]
  by_cases hlow : i < m
  · have hidx : (i + (32 - m)) % 32 = k + i := by omega
    simp [hlow, hidx]
  · have hidx : (i + (32 - m)) % 32 = i - m := by omega
    have hik : i - m < k := by omega
    simp [hlow, hidx, hik]

/-- A word that one rotation fixes is fixed by every multiple of that rotation. -/
theorem rotl32_mul_of_fixed {x : Word} {n : Nat} (h : rotl32 x n = x) (m : Nat) : rotl32 x (n * m) = x := by
  induction m with
  | zero => exact rotl32_of_mod_eq_zero x (Nat.zero_mod 32)
  | succ m ih => rw [Nat.mul_succ, ← rotl32_rotl32, ih, h]

/-- 5 is coprime to 32 (5 * 13 = 2 * 32 + 1), so a rotation by a multiple of 5 takes bit 0 to any place: in a word that the
rotation by 5 fixes all bits are alike. -/
theorem getLsbD_of_rotl32_five_fixed {x : Word} (h : rotl32 x 5 = x) {i : Nat} (hi : i < 32) :
    x.getLsbD i = x.getLsbD 0 := by
  have hplace : (0 + 5 * (13 * i)) % 32 = i := by omega
  calc x.getLsbD i
      = (rotl32 x (5 * (13 * i))).getLsbD ((0 + 5 * (13 * i)) % 32) := by rw [rotl32_mul_of_fixed h, hplace]
    _ = x.getLsbD 0 := getLsbD_rotl32_at_target x _ (by decide)

theorem rotl32_five_eq_self_iff (x : Word) : rotl32 x 5 = x ↔ x = 0 ∨ x = 0xFFFFFFFF := by
  constructor
  · intro h
    cases h0 : x.getLsbD 0 with
    | false =>
      refine .inl (BitVec.eq_of_getLsbD_eq fun i hi => ?_)
      rw [getLsbD_of_rotl32_five_fixed h hi, h0, BitVec.ofNat_eq_ofNat, BitVec.getLsbD_zero]
    | true =>
      refine .inr (BitVec.eq_of_getLsbD_eq fun i hi => ?_)
      have hones : (0xFFFFFFFF : Word) = BitVec.allOnes 32 := by decide
      rw [getLsbD_of_rotl32_five_fixed h hi, h0, hones, BitVec.getLsbD_allOnes, decide_eq_true hi]
  · rintro (rfl | rfl) <;> decide

/-- The first subkey is the key itself. -/
@[simp] theorem subkey_zero (key : Word) : subkey key 0 = key := rotl32_of_mod_eq_zero key rfl

/-- The three subkeys are equal exactly when the rotation by 5 fixes the key. -/
theorem subkeys_equal_iff (key : Word) :
    subkey key 0 = subkey key 1 ∧ subkey key 1 = subkey key 2 ↔ rotl32 key 5 = key := by
  rw [subkey_zero]
  constructor
  · rintro ⟨h, -⟩
    exact h.symm
  · intro h
    have hfixed (i : Nat) : subkey key i = key := rotl32_mul_of_fixed h i
    exact ⟨(hfixed 1).symm, (hfixed 1).trans (hfixed 2).symm⟩

/-- `KEYSCHED` puts the three subkeys on the unit's output, in the order of the round index. -/
theorem exec_keysched (key : Word) (s : State) :
    exec (.keysched key) s = .next (s.setUnitOut (.subkeys (subkey key 0) (subkey key 1) (subkey key 2))) := rfl

/-- Settles O22: the slices by the slice form of the rotation, the equal subkeys by the keys that the rotation by 5 fixes. -/
theorem keyScheduleGivesTheRotatedKeys : Obligations.KeyScheduleGivesTheRotatedKeys := by
  intro key s
  have hslice1 : subkey key 1 = key.extractLsb' 0 27 ++ key.extractLsb' 27 5 :=
    rotl32_eq_append_slices key (k := 27) (m := 5) rfl (by decide)
  have hslice2 : subkey key 2 = key.extractLsb' 0 22 ++ key.extractLsb' 22 10 :=
    rotl32_eq_append_slices key (k := 22) (m := 10) rfl (by decide)
  exact ⟨subkey key 0, subkey key 1, subkey key 2, exec_keysched key s, subkey_zero key, hslice1, hslice2, rfl, rfl, rfl,
    (subkeys_equal_iff key).trans (rotl32_five_eq_self_iff key)⟩

end Sys2Proof.Machine
end

section
/-! PROOFS. The substitution layer (42_substitution_layer.md R100, R101, R103, R104) and the round it makes with the permutation
layer (44_block_cipher.md R120, R121): what each lane holds, and how the two directions undo each other. -/

namespace Sys2Proof.Machine

/-! ## The substitution layer lane by lane (42_substitution_layer.md R100, R101) -/

/-- `SUB` puts the substituted word on the unit's output. -/
theorem exec_sub (block sk : Word) (s : State) :
    exec (.sub block sk) s = .next (s.setUnitOut (.word (subUnit Config.sbox block sk))) := rfl

/-- `SUBINV` puts the inversely substituted word on the unit's output. -/
theorem exec_subinv (block sk : Word) (s : State) :
    exec (.subinv block sk) s = .next (s.setUnitOut (.word (subInvUnit Config.sbox block sk))) := rfl

/-- Mixing in the same key a second time takes it out again. -/
@[simp] theorem xor_xor_cancel {n : Nat} (v k : BitVec n) : v ^^^ k ^^^ k = v := by
  rw [BitVec.xor_assoc, BitVec.xor_self, BitVec.xor_zero]

/-- The two lookups undo each other (40_sbox_tables.md R81). -/
@[simp] theorem sboxInvRead_sboxRead (T : Sbox) (v : Nibble) : sboxInvRead T (sboxRead T v) = v :=
  (sboxPerm T).symm_apply_apply v

@[simp] theorem sboxRead_sboxInvRead (T : Sbox) (i : Nibble) : sboxRead T (sboxInvRead T i) = i :=
  (sboxPerm T).apply_symm_apply i

/-- Settles O23: every lane is the lookup at the mixed nibble. -/
theorem substitutionMixesBeforeTheLookup : Obligations.SubstitutionMixesBeforeTheLookup := fun block sk s =>
  ⟨subUnit Config.sbox block sk, exec_sub block sk s, nib_subUnit Config.sbox block sk⟩

/-- Settles O24: taking the key nibble out of a lane leaves the inverse lookup, and that is the index of the block nibble. -/
theorem inverseSubstitutionMixesAfterTheLookup : Obligations.InverseSubstitutionMixesAfterTheLookup := by
  intro block sk s
  refine ⟨subInvUnit Config.sbox block sk, exec_subinv block sk s, fun p => ?_⟩
  calc sboxRead Config.sbox (nib (subInvUnit Config.sbox block sk) p ^^^ nib sk p)
      = sboxRead Config.sbox (sboxInvRead Config.sbox (nib block p)) := by rw [nib_subInvUnit, xor_xor_cancel]
    _ = nib block p := sboxRead_sboxInvRead Config.sbox (nib block p)

/-! ## The round trip and the whole-word form (R103, R104) -/

@[simp] theorem subInvUnit_subUnit (T : Sbox) (b k : Word) : subInvUnit T (subUnit T b k) k = b := by
  refine word_ext_nib fun p => ?_
  rw [nib_subInvUnit, nib_subUnit, sboxInvRead_sboxRead, xor_xor_cancel]

@[simp] theorem subUnit_subInvUnit (T : Sbox) (b k : Word) : subUnit T (subInvUnit T b k) k = b := by
  refine word_ext_nib fun p => ?_
  rw [nib_subUnit, nib_subInvUnit, xor_xor_cancel, sboxRead_sboxInvRead]

/-- Settles O25: the inverse unit is a two-sided inverse, so the layer is a bijection. -/
theorem substitutionRoundTrip : Obligations.SubstitutionRoundTrip := by
  intro T K
  have hleft (B : Word) : subInvUnit T (subUnit T B K) K = B := subInvUnit_subUnit T B K
  have hright (B : Word) : subUnit T (subInvUnit T B K) K = B := subUnit_subInvUnit T B K
  exact ⟨hleft, hright, Function.bijective_iff_has_inverse.mpr ⟨(subInvUnit T · K), hleft, hright⟩⟩

@[simp] theorem nib_zero (p : Fin 8) : nib 0#32 p = 0#4 := BitVec.extractLsb'_zero

/-- The key may be mixed in whole, before the bare lookups. -/
theorem subUnit_eq_subUnit_xor (T : Sbox) (b k : Word) : subUnit T b k = subUnit T (b ^^^ k) 0 := by
  refine word_ext_nib fun p => ?_
  simp only [nib_subUnit, nib_xor, BitVec.ofNat_eq_ofNat, nib_zero, BitVec.xor_zero]

/-- The key may be mixed in whole, after the bare inverse lookups. -/
theorem subInvUnit_eq_subInvUnit_zero_xor (T : Sbox) (b k : Word) : subInvUnit T b k = subInvUnit T b 0 ^^^ k := by
  refine word_ext_nib fun p => ?_
  simp only [nib_xor, nib_subInvUnit, BitVec.ofNat_eq_ofNat, nib_zero, BitVec.xor_zero]

/-- Settles O26: both units in whole-word form. -/
theorem substitutionWholeWordForm : Obligations.SubstitutionWholeWordForm := fun T B K =>
  ⟨subUnit_eq_subUnit_xor T B K, subInvUnit_eq_subInvUnit_zero_xor T B K⟩

/-! ## The round (44_block_cipher.md R120, R121) -/

@[simp] theorem permInvUnit_permUnit (b k : Word) : permInvUnit (permUnit b k) k = b := rotr32_rotl32 b (rotAmount k)

@[simp] theorem permUnit_permInvUnit (b k : Word) : permUnit (permInvUnit b k) k = b := rotl32_rotr32 b (rotAmount k)

/-- The decrypt round takes the layers of the encrypt round off in the reverse order. -/
@[simp] theorem decRound_encRound (T : Sbox) (b k : Word) : decRound T (encRound T b k) k = b := by
  rw [decRound, encRound, permInvUnit_permUnit, subInvUnit_subUnit]

@[simp] theorem encRound_decRound (T : Sbox) (b k : Word) : encRound T (decRound T b k) k = b := by
  rw [encRound, decRound, subUnit_subInvUnit, permUnit_permInvUnit]

/-- `ROUND` forward is the encrypt round with the subkey of its position. -/
theorem roundUnit_encrypt (T : Sbox) (key : Word) (s : Fin 3) (d : Word) :
    roundUnit T .encrypt key s d = encRound T d (subkey key s.val) := rfl

/-- `ROUND` inverse at the mirrored position is the decrypt round with that same subkey. -/
theorem roundUnit_decrypt_mirrored (T : Sbox) (key : Word) (s : Fin 3) (d : Word) :
    roundUnit T .decrypt key (2 - s) d = decRound T d (subkey key s.val) := by
  have hindex : ∀ s : Fin 3, roundIndex .decrypt (2 - s) = s.val := by decide
  rw [roundUnit, hindex, subkey]

/-- Settles O31: the mirrored positions use the same subkey, and with one subkey the two rounds undo each other. -/
theorem roundsUndoEachOther : Obligations.RoundsUndoEachOther := by
  intro T key d position
  simp only [roundUnit_encrypt, roundUnit_decrypt_mirrored]
  exact ⟨decRound_encRound T d (subkey key position.val), encRound_decRound T d (subkey key position.val)⟩

end Sys2Proof.Machine
end

section
/-! PROOFS. The permutation layer (43_permutation_layer.md R110 to R113): a rotation by the low five bits of the subkey, and how its
two directions undo each other. -/

namespace Sys2Proof.Machine

/-! ## The rotation amount (R110) -/

/-- The slice `subkey[4:0]` of the spec and the mask `0x1F` of the model name one amount. -/
theorem toNat_extractLsb'_eq_rotAmount (k : Word) : (k.extractLsb' 0 5).toNat = rotAmount k := by
  rw [rotAmount_eq, BitVec.extractLsb'_toNat, Nat.shiftRight_zero]

theorem rotAmount_mod_eq_zero {k : Word} (h : k.extractLsb' 0 5 = 0) : rotAmount k % 32 = 0 := by
  rw [← toNat_extractLsb'_eq_rotAmount, h, BitVec.ofNat_eq_ofNat, BitVec.toNat_zero]

/-! ## Where each bit goes (R111, R112) -/

/-- `PERM` puts the permuted word on the unit's output. -/
theorem exec_perm (block sk : Word) (s : State) :
    exec (.perm block sk) s = .next (s.setUnitOut (.word (permUnit block sk))) := rfl

/-- `PERMINV` puts the inversely permuted word on the unit's output. -/
theorem exec_perminv (block sk : Word) (s : State) :
    exec (.perminv block sk) s = .next (s.setUnitOut (.word (permInvUnit block sk))) := rfl

/-- Settles O27, by the bit form of the rotation left and its guard. -/
theorem permutationRotatesBySubkeyBits : Obligations.PermutationRotatesBySubkeyBits := by
  intro block sk s
  rw [toNat_extractLsb'_eq_rotAmount]
  exact ⟨permUnit block sk, exec_perm block sk s, fun _ hi => getLsbD_rotl32_at_target block (rotAmount sk) hi,
    fun h => rotl32_of_mod_eq_zero block (rotAmount_mod_eq_zero h)⟩

/-- Settles O28, by the bit form of the rotation right and its guard. -/
theorem inversePermutationRotatesBack : Obligations.InversePermutationRotatesBack := by
  intro block sk s
  rw [toNat_extractLsb'_eq_rotAmount]
  refine ⟨permInvUnit block sk, exec_perminv block sk s, fun i hi => ?_,
    fun h => rotr32_of_mod_eq_zero block (rotAmount_mod_eq_zero h)⟩
  rw [permInvUnit, getLsbD_rotr32 block (rotAmount sk) i hi, Nat.add_mod_mod]

/-! ## The round trip (R113) -/

/-- Settles O29: the inverse unit is a two-sided inverse, so the layer is a bijection. -/
theorem permutationRoundTrip : Obligations.PermutationRoundTrip := by
  intro K
  have hleft (B : Word) : permInvUnit (permUnit B K) K = B := permInvUnit_permUnit B K
  have hright (B : Word) : permUnit (permInvUnit B K) K = B := permUnit_permInvUnit B K
  exact ⟨hleft, hright, Function.bijective_iff_has_inverse.mpr ⟨(permInvUnit · K), hleft, hright⟩⟩

end Sys2Proof.Machine
end

section
/-! PROOFS. The block cipher (44_block_cipher.md part 1, R120 to R128): the rounds of the two transforms, how they undo each other, and
the transform with key 0. -/

namespace Sys2Proof.Machine

/-! ## The round evaluated by itself (R120, R121) -/

/-- `ROUND` puts the word behind its two layers on the unit's output. -/
theorem exec_round (dir : Mode) (key : Word) (position : Fin 3) (d : Word) (s : State) :
    exec (.round dir key position d) s = .next (s.setUnitOut (.word (roundUnit Config.sbox dir key position d))) := rfl

/-- Settles O30: the round index of each direction, and the order of the layers in its round. -/
theorem roundUnitAppliesItsLayers : Obligations.RoundUnitAppliesItsLayers := by
  intro key d position s
  constructor
  · rintro sk rfl
    exact exec_round .encrypt key position d s
  · rintro sk rfl
    exact exec_round .decrypt key position d s

/-! ## The transforms round by round (R122, R123) -/

theorem encBlock_eq_encRounds (T : Sbox) (b key : Word) :
    encBlock T b key = encRound T (encRound T (encRound T b (subkey key 0)) (subkey key 1)) (subkey key 2) := rfl

theorem decBlock_eq_decRounds (T : Sbox) (b key : Word) :
    decBlock T b key = decRound T (decRound T (decRound T b (subkey key 2)) (subkey key 1)) (subkey key 0) := rfl

/-! ## The round trip (R128) -/

@[simp] theorem decBlock_encBlock (T : Sbox) (b key : Word) : decBlock T (encBlock T b key) key = b := by
  rw [decBlock_eq_decRounds, encBlock_eq_encRounds, decRound_encRound, decRound_encRound, decRound_encRound]

@[simp] theorem encBlock_decBlock (T : Sbox) (b key : Word) : encBlock T (decBlock T b key) key = b := by
  rw [encBlock_eq_encRounds, decBlock_eq_decRounds, encRound_decRound, encRound_decRound, encRound_decRound]

/-- Settles O35: the rounds come off in the reverse order, so each transform is a two-sided inverse of the other. -/
theorem cipherRoundTrip : Obligations.CipherRoundTrip := by
  intro T K
  have hdec (B : Word) : decBlock T (encBlock T B K) K = B := decBlock_encBlock T B K
  have henc (B : Word) : encBlock T (decBlock T B K) K = B := encBlock_decBlock T B K
  exact ⟨hdec, henc, Function.bijective_iff_has_inverse.mpr ⟨(decBlock T · K), hdec, henc⟩,
    Function.bijective_iff_has_inverse.mpr ⟨(encBlock T · K), henc, hdec⟩⟩

/-! ## Key 0 (corner case of R122 and R123) -/

/-- Every rotation fixes the key 0, so its three subkeys are 0. -/
@[simp] theorem subkey_of_key_zero (i : Nat) : subkey 0 i = 0 :=
  rotl32_mul_of_fixed ((rotl32_five_eq_self_iff 0).mpr (.inl rfl)) i

/-- With subkey 0 the permutation rotates by 0, so a lane of the round is its bare lookup. -/
theorem nib_encRound_zero (T : Sbox) (b : Word) (p : Fin 8) : nib (encRound T b 0) p = sboxRead T (nib b p) := by
  have hperm : permUnit (subUnit T b 0) 0 = subUnit T b 0 := rotl32_of_mod_eq_zero _ (rotAmount_mod_eq_zero rfl)
  rw [encRound, hperm, nib_subUnit, BitVec.ofNat_eq_ofNat, nib_zero, BitVec.xor_zero]

theorem nib_decRound_zero (T : Sbox) (b : Word) (p : Fin 8) : nib (decRound T b 0) p = sboxInvRead T (nib b p) := by
  have hperm : permInvUnit b 0 = b := rotr32_of_mod_eq_zero _ (rotAmount_mod_eq_zero rfl)
  rw [decRound, hperm, nib_subInvUnit, BitVec.ofNat_eq_ofNat, nib_zero, BitVec.xor_zero]

/-- Settles O36: the three rounds have subkey 0, and each is the bare lookup in every lane. -/
theorem keyZeroIsThreeBareLookups : Obligations.KeyZeroIsThreeBareLookups := by
  intro T B p
  constructor
  · simp only [encBlock_eq_encRounds, subkey_of_key_zero, nib_encRound_zero]
  · simp only [decBlock_eq_decRounds, subkey_of_key_zero, nib_decRound_zero]

end Sys2Proof.Machine
end

section
/-! PROOFS. The pipeline (44_block_cipher.md part 2, R122 to R133): the clock step, and the result each stage will give, which moves
one stage on at every edge. -/

namespace Sys2Proof.Machine

/-! ## The step (R129, R130) -/

/-- A cycle is safe exactly when the host does not misuse the output (10_state.md R30). -/
theorem State.usesNoResult_eq_false_iff (s : State) : s.usesNoResult = false ↔ s.safe := by
  simp [State.usesNoResult, State.safe]

/-- A safe cycle has a next state (60_exceptions.md R161). -/
theorem exists_step_of_safe {s : State} (hs : s.safe) : ∃ t, step s = .next t := by
  obtain ⟨hu, _⟩ | ⟨_, _, h⟩ | ⟨_, _, h⟩ := step_cases s
  · rw [s.usesNoResult_eq_false_iff.mpr hs] at hu
    cases hu
  · exact ⟨_, h⟩
  · exact ⟨_, h⟩

/-- Settles O8: neither of the two branches before the command is taken, and the host's half leaves the core alone. -/
theorem stepRunsTheDecodedCommand : Obligations.StepRunsTheDecodedCommand := by
  rintro s i hs hr rfl
  have hstep : step s = exec (decode s.ports.word) s.hostMove := by
    rw [step, s.usesNoResult_eq_false_iff.mpr hs, hr]
    rfl
  exact ⟨hstep, s.hostMove_s1, s.hostMove_s2, s.hostMove_s3, s.hostMove_unitOut⟩

/-- The command sampled at an edge without reset, by `in_valid` (R130). -/
theorem portCommand_of_no_reset {p : Ports} (hr : p.rst = false) :
    portCommand p = if p.inValid = 1 then some ⟨Mode.ofBit p.mode, p.key, p.blockIn⟩ else none := by
  obtain h0 | h1 := selectBit_cases p.inValid
  · simp [portCommand, h0]
  · simp [portCommand, hr, h1]

theorem portCommand_of_not_valid {p : Ports} (hv : p.inValid = 0) : portCommand p = none := by
  simp [portCommand, hv]

/-- Settles O9: the stages after each kind of edge, and the outputs read off stage 3. -/
theorem pipelineStepFollowsTheRule : Obligations.PipelineStepFollowsTheRule := by
  intro s
  refine ⟨fun hs => ?_, fun d h3 => ⟨congrArg Option.isSome h3, h3⟩, fun h3 => ⟨congrArg Option.isSome h3, h3⟩⟩
  obtain ⟨t, ht⟩ := exists_step_of_safe hs
  refine ⟨t, ht, ?_⟩
  obtain ⟨_, _, _, _, _, ⟨hr, h1, h2, h3⟩ | ⟨hr, h1, h2, h3⟩⟩ := step_stages ht
  · rw [if_pos hr]
    exact ⟨h1, h2, h3⟩
  · rw [if_neg (by simp [hr]), h1, h2, h3, portCommand_of_no_reset hr]
    refine ⟨?_, ?_, ?_⟩
    · split <;> rfl
    · cases s.s1 <;> rfl
    · cases s.s2 <;> rfl

/-! ## The result a stage will give (R131) -/

/-- The result of a command: the transform of its block, as its mode says (R131). -/
def Stage.result (T : Sbox) (c : Stage) : Word := cryptBlock T c.mode c.data c.key

/-- The result that the block in stage 1 will give, if no reset discards it. -/
def State.result1 (T : Sbox) (s : State) : Option Word := s.s1.map fun st => ((st.through T 1).through T 2).data

/-- The result that the block in stage 2 will give, if no reset discards it. -/
def State.result2 (T : Sbox) (s : State) : Option Word := s.s2.map fun st => (st.through T 2).data

/-- A command that enters stage 1 will give its result. -/
theorem State.advance_result1 (T : Sbox) (s : State) (c : Option Stage) :
    (s.advance T c).result1 T = c.map (Stage.result T) := by
  cases c with
  | none => rfl
  | some c => exact congrArg some (Stage.through_all T c)

theorem State.advance_result2 (T : Sbox) (s : State) (c : Option Stage) : (s.advance T c).result2 T = s.result1 T := by
  rw [State.result2, State.advance_s2, Option.map_map]
  rfl

theorem State.advance_s3_eq_result2 (T : Sbox) (s : State) (c : Option Stage) : (s.advance T c).s3 = s.result2 T := rfl

/-- At a clock edge the results to come move one stage on, behind that of the command on the ports, or are all discarded by a reset
(R130, 70_reset_and_hazards.md R182). -/
theorem step_results {s t : State} (h : step s = .next t) :
    t.result1 Config.sbox = (portCommand s.ports).map (Stage.result Config.sbox)
    ∧ t.result2 Config.sbox = (if s.ports.rst = true then none else s.result1 Config.sbox)
    ∧ t.s3 = (if s.ports.rst = true then none else s.result2 Config.sbox) := by
  obtain ⟨_, _, _, _, _, ⟨hr, h1, h2, h3⟩ | ⟨hr, h1, h2, h3⟩⟩ := step_stages h
  · simp [State.result1, State.result2, h1, h2, h3, hr, portCommand]
  · have hnot : ¬ s.ports.rst = true := by simp [hr]
    rw [if_neg hnot, if_neg hnot, ← State.advance_result1 _ s, ← State.advance_result2 _ s (portCommand s.ports)]
    simp [State.result1, State.result2, h1, h2, h3]

/-! ## A command and two more (R122 to R124) -/

/-- Every word on the command port is a command, and a command advances the pipeline (30_encoding.md R66). -/
theorem exec_decode_advances (w : CmdWord) (s : State) : ∃ c, exec (decode w) s = .next (s.advance Config.sbox c) := by
  have hissuable : (decode w).issuable = true := (portIssuesExactlyTheCommands (decode w)).mpr ⟨w, rfl⟩
  obtain ⟨_, c, h⟩ | ⟨hunit, _⟩ := exec_cases (decode w) s
  · exact ⟨c, h⟩
  · rw [hissuable] at hunit
    cases hunit

/-- Two edges after a command has entered stage 1, whatever commands follow, its result is in stage 3; for no command, none is. -/
theorem result_two_commands_later (s : State) (c : Option Stage) (w1 w2 : CmdWord) : ∃ u v,
    exec (decode w1) (s.advance Config.sbox c) = .next u ∧ exec (decode w2) u = .next v
    ∧ v.s3 = c.map (Stage.result Config.sbox) := by
  obtain ⟨c1, hu⟩ := exec_decode_advances w1 (s.advance Config.sbox c)
  obtain ⟨c2, hv⟩ := exec_decode_advances w2 ((s.advance Config.sbox c).advance Config.sbox c1)
  refine ⟨_, _, hu, hv, ?_⟩
  rw [State.advance_s3_eq_result2, State.advance_result2, State.advance_result1]

/-- Settles O32: no command enters stage 1, so none is in stage 3 two edges later. -/
theorem nopLeavesABubble : Obligations.NopLeavesABubble := by
  intro s w1 w2
  obtain ⟨u, v, hu, hv, hresult⟩ := result_two_commands_later s none w1 w2
  exact ⟨s.advance Config.sbox none, u, v, rfl, rfl, hu, hv, congrArg Option.isSome hresult, hresult⟩

/-- Settles O33: position 0 has subkey 0, which is the key, and the result two edges later is the transform. -/
theorem encryptRunsRoundsInOrder : Obligations.EncryptRunsRoundsInOrder := by
  intro key block s w1 w2 sk0 sk1 sk2 b1 b2 b3
  have hfirst : Stage.through Config.sbox 0 ⟨.encrypt, key, block⟩ = ⟨.encrypt, key, b1⟩ := by
    rw [Stage.through, roundUnit_encrypt, Fin.val_zero, subkey_zero]
    rfl
  have hblock : encBlock Config.sbox block key = b3 := by
    rw [encBlock_eq_encRounds, subkey_zero]
    rfl
  obtain ⟨u, v, hu, hv, hresult⟩ := result_two_commands_later s (some ⟨.encrypt, key, block⟩) w1 w2
  refine ⟨_, u, v, rfl, ?_, hu, hv, congrArg Option.isSome hresult, hresult.trans (congrArg some hblock), hblock⟩
  rw [← hfirst]
  rfl

/-- Settles O34: position 0 has subkey 2, and the result two edges later is the transform, whose last subkey is the key. -/
theorem decryptRunsRoundsInReverse : Obligations.DecryptRunsRoundsInReverse := by
  intro key block s w1 w2 sk0 sk1 sk2 b1 b2 b3
  have hfirst : Stage.through Config.sbox 0 ⟨.decrypt, key, block⟩ = ⟨.decrypt, key, b1⟩ := rfl
  have hblock : decBlock Config.sbox block key = b3 := by
    rw [decBlock_eq_decRounds, subkey_zero]
    rfl
  obtain ⟨u, v, hu, hv, hresult⟩ := result_two_commands_later s (some ⟨.decrypt, key, block⟩) w1 w2
  refine ⟨_, u, v, rfl, ?_, hu, hv, congrArg Option.isSome hresult, hresult.trans (congrArg some hblock), hblock⟩
  rw [← hfirst]
  rfl

/-! ## Three cycles (R131, R133) -/

/-- With no reset in cycles `t+1` and `t+2` stage 3 holds in cycle `t+3` the result of the command sampled in cycle `t`, and nothing
if there was none. -/
theorem result_three_cycles_later {s0 s1 s2 s3 : State} (h0 : step s0 = .next s1) (h1 : step s1 = .next s2)
    (h2 : step s2 = .next s3) (hr1 : s1.ports.rst = false) (hr2 : s2.ports.rst = false) :
    s3.s3 = (portCommand s0.ports).map (Stage.result Config.sbox) := by
  obtain ⟨hfirst, _, _⟩ := step_results h0
  obtain ⟨_, hsecond, _⟩ := step_results h1
  obtain ⟨_, _, hthird⟩ := step_results h2
  rw [hthird, hr2, if_neg Bool.false_ne_true, hsecond, hr1, if_neg Bool.false_ne_true, hfirst]

/-- Settles O37: the command sampled in the first cycle is the one on its ports, and its result is in stage 3. -/
theorem resultAppearsThreeCyclesLater : Obligations.ResultAppearsThreeCyclesLater := by
  intro s0 s1 s2 s3 h0 h1 h2 hr0 hr1 hr2 hv
  have hresult := result_three_cycles_later h0 h1 h2 hr1 hr2
  rw [portCommand_of_no_reset hr0, if_pos hv, Option.map_some] at hresult
  refine ⟨congrArg Option.isSome hresult, fun hm => ?_, fun hm => ?_⟩
  all_goals
    rw [hm] at hresult
    exact hresult

/-- Settles O39: either machine presents the result of the command on the ports they share. -/
theorem resultDependsOnItsCommandAlone : Obligations.ResultDependsOnItsCommandAlone := by
  intro s0 s1 s2 s3 t0 t1 t2 t3 hs0 hs1 hs2 ht0 ht1 ht2 hports hrs1 hrs2 hrt1 hrt2
  have hsame : s3.s3 = t3.s3 := by
    rw [result_three_cycles_later hs0 hs1 hs2 hrs1 hrs2, result_three_cycles_later ht0 ht1 ht2 hrt1 hrt2, hports]
  exact ⟨congrArg Option.isSome hsame, hsame⟩

/-- With no command on the ports two more cycles are enough until the pipeline is empty (R133). -/
theorem State.busy_le_two {s : State} (hp : portCommand s.ports = none) : s.busy ≤ 2 := by
  simp only [State.busy, hp, Option.isSome_none, Bool.false_eq_true, if_false]
  split_ifs <;> decide

/-- Settles O40: each cycle without a command brings the pipeline nearer to empty, and after the third no cycle is left. -/
theorem drainEmptiesThePipeline : Obligations.DrainEmptiesThePipeline := by
  intro s0 s1 s2 s3 h0 h1 h2 _ _ _ hv0 hv1 hv2
  have hbusy0 : s0.busy ≤ 2 := State.busy_le_two (portCommand_of_not_valid hv0)
  have hbusy1 : s1.busy ≤ s0.busy - 1 := State.busy_step h0 (portCommand_of_not_valid hv1)
  have hbusy2 : s2.busy ≤ s1.busy - 1 := State.busy_step h1 (portCommand_of_not_valid hv2)
  exact State.stages_of_busy_zero h2 (by omega)

end Sys2Proof.Machine
end

section
/-! PROOFS. What a watcher of the result port sees over a run from a reset (44_block_cipher.md R134): the results in the stages and
those of the commands to come, each as far as no reset and not the end of the run cuts it off. -/

namespace Sys2Proof.Machine

/-! ## Which results reach the port (R134, 70_reset_and_hazards.md R182) -/

/-- What is presented, over a sequence of input cycles, of a result that is `k` edges away from stage 3: the result, unless the
sequence ends before or one of these edges is a reset. -/
def presented : Nat → List Ports → Option Word → List Word
  | _, [], _ => []
  | 0, _ :: _, r => r.toList
  | k + 1, p :: ps, r => if p.rst = true then [] else presented k ps r

theorem presented_none (k : Nat) (ps : List Ports) : presented k ps none = [] := by
  induction ps generalizing k with
  | nil => cases k <;> rfl
  | cons p ps ih =>
    cases k with
    | zero => rfl
    | succ k => rw [presented, ih, ite_self]

/-- One edge on, a result is one edge nearer, or discarded. -/
theorem presented_succ_cons (k : Nat) (p : Ports) (ps : List Ports) (r : Option Word) :
    presented (k + 1) (p :: ps) r = presented k ps (if p.rst = true then none else r) := by
  rw [presented]
  split
  · rw [presented_none]
  · rfl

/-- What a sequence of cycles delivers is the result of its first command, two edges from stage 3 once sampled, and what the rest
delivers. -/
theorem delivered_cons (T : Sbox) (p : Ports) (ps : List Ports) :
    delivered T (p :: ps) = presented 2 ps ((portCommand p).map (Stage.result T)) ++ delivered T ps := by
  conv_lhs => unfold delivered
  congr 1
  cases portCommand p with
  | none => simp [presented_none]
  | some c =>
    match ps with
    | [] | [_] | [_, _] => simp [presented]
    | p1 :: p2 :: _ :: _ => cases h1 : p1.rst <;> cases h2 : p2.rst <;> simp [presented, h1, h2, Stage.result]

/-! ## The host that plays a sequence of cycles -/

/-- The host is at rest, looks away from the result port, and has these input cycles before it. -/
def State.Plays (s : State) (ps : List Ports) : Prop :=
  s.driver = .idle ∧ s.take = .ignore ∧ s.agenda = ps.map (fun p => .cycle p .ignore)

theorem State.Plays.safe {s : State} {ps : List Ports} (hs : s.Plays ps) : s.safe := by
  obtain ⟨_, htake, _⟩ := hs
  simp [State.safe, htake]

/-- A step puts the first of the cycles on the ports and leaves the rest to play. -/
theorem State.Plays.after_step {s t : State} {p : Ports} {ps : List Ports} (hs : s.Plays (p :: ps)) (h : step s = .next t) :
    t.ports = p ∧ t.Plays ps := by
  obtain ⟨hdriver, htake, hagenda⟩ := hs
  have hmove : s.hostMove = { s with ports := p, take := .ignore, agenda := ps.map (fun p => .cycle p .ignore) } := by
    simp [State.hostMove, State.hostTake, State.hostChoose, hdriver, htake, hagenda]
  obtain ⟨ht, hd, hp, ha, _⟩ := step_stages h
  rw [hmove] at ht hd hp ha
  exact ⟨hp, hd.trans hdriver, ht, ha⟩

/-! ## The run -/

/-- While the cycles are played the port shows the result in stage 3, those the other two stages will give, and those of the commands
played, in this order. -/
theorem observe_of_plays (ps : List Ports) : ∀ {s t : State}, s.Plays ps → step s = .next t →
    observe ps.length t
      = presented 0 ps t.s3 ++ presented 1 ps (t.result2 Config.sbox) ++ presented 2 ps (t.result1 Config.sbox)
        ++ delivered Config.sbox ps := by
  induction ps with
  | nil => intros; rfl
  | cons p ps ih =>
    intro s t hs h
    obtain ⟨rfl, ht⟩ := hs.after_step h
    obtain ⟨u, hu⟩ := exists_step_of_safe ht.safe
    obtain ⟨h1, h2, h3⟩ := step_results hu
    have hnow : observe (ps.length + 1) t = t.s3.toList ++ observe ps.length u := by simp only [observe, hu, State.blockOut]
    rw [List.length_cons, hnow, ih ht hu, h1, h2, h3, presented_succ_cons, presented_succ_cons, delivered_cons]
    simp only [presented, List.append_assoc]

/-- Settles O41: the reset leaves no result in the stages, so the port shows what the cycles deliver. -/
theorem runDeliversResultsInCommandOrder : Obligations.RunDeliversResultsInCommandOrder := by
  intro s ps hdriver htake hrst hagenda
  have hs : s.Plays ps := ⟨hdriver, htake, hagenda⟩
  obtain ⟨t, ht⟩ := exists_step_of_safe hs.safe
  obtain ⟨h1, h2, h3⟩ := step_results ht
  have hno : portCommand s.ports = none := by simp [portCommand, hrst]
  refine ⟨t, ht, ?_⟩
  rw [observe_of_plays ps hs ht, h1, h2, h3, hno, if_pos hrst, if_pos hrst]
  simp only [Option.map_none, presented_none, List.nil_append]

end Sys2Proof.Machine
end

section
/-! PROOFS. The host's half of a cycle, outside a `PROCESS` and while one runs: which fields of the next state it sets
(45_file_block_processor.md R149, R150; 44_block_cipher.md R129). -/

namespace Sys2Proof.Machine

/-- Looking at the result port changes only what the host has taken, so the host chooses as it would without. -/
theorem State.hostMove_eq_hostChoose (s : State) : ∃ taken, s.hostMove = { s with taken := taken }.hostChoose := by
  rw [State.hostMove, State.hostTake]
  split
  · exact ⟨_, rfl⟩
  · exact ⟨_, rfl⟩
  · exact ⟨s.taken, rfl⟩
  · exact ⟨s.taken, rfl⟩
  · exact ⟨s.taken, rfl⟩

/-- The host at rest with nothing to do holds an idle cycle (R149). -/
theorem step_with_empty_agenda {s t : State} (h : step s = .next t) (hd : s.driver = .idle) (ha : s.agenda = []) :
    t.ports = Ports.idle ∧ t.take = .ignore ∧ t.agenda = [] ∧ t.driver = .idle ∧ t.returns = s.returns := by
  obtain ⟨taken, hmove⟩ := s.hostMove_eq_hostChoose
  obtain ⟨ht, hdr, hp, hag, hr, _⟩ := step_stages h
  simp only [hmove, State.hostChoose, hd, ha] at ht hdr hp hag hr
  exact ⟨hp, ht, hag, hdr, hr⟩

/-- The host at rest plays the cycle that is next on its agenda (R150, log 4). -/
theorem step_with_cycle_next {s t : State} {p : Ports} {k : Take} {rest : List Action} (h : step s = .next t)
    (hd : s.driver = .idle) (ha : s.agenda = .cycle p k :: rest) :
    t.ports = p ∧ t.take = k ∧ t.agenda = rest ∧ t.driver = .idle ∧ t.returns = s.returns := by
  obtain ⟨taken, hmove⟩ := s.hostMove_eq_hostChoose
  obtain ⟨ht, hdr, hp, hag, hr, _⟩ := step_stages h
  simp only [hmove, State.hostChoose, hd, ha] at ht hdr hp hag hr
  exact ⟨hp, ht, hag, hdr, hr⟩

/-- The host at rest starts the call that is next on its agenda: the call ends at once with the error that the procedure answers, or
its streams are open and it runs, after the cycles that make the pipeline empty (R143, R149; log 15). -/
theorem step_with_call_next {s t : State} {c : Call} {rest : List Action} (h : step s = .next t)
    (hd : s.driver = .idle) (ha : s.agenda = .process c :: rest) :
    t.agenda = rest ∧ t.take = .ignore
    ∧ ((((∃ e, boundary c = .error e) ∨ ∃ trace e, openStreams c.failing = (trace, some e))
          ∧ t.driver = .idle ∧ t.returns = s.returns ++ [process Config.sbox c])
      ∨ ∃ key mode trace, boundary c = .ok (key, mode) ∧ openStreams c.failing = (trace, none)
          ∧ t.driver = .running (Job.start c key mode (s.prepareCycles c.prepare).2 trace)
          ∧ t.ports = (s.prepareCycles c.prepare).1 ∧ t.returns = s.returns) := by
  obtain ⟨taken, hmove⟩ := s.hostMove_eq_hostChoose
  obtain ⟨ht, hdr, hp, hag, hr, _⟩ := step_stages h
  have hstart : s.hostMove = { s with taken := taken, agenda := rest }.startProcess c := by
    simp only [hmove, State.hostChoose, hd, ha]
  obtain ⟨e, hb, hs⟩ | ⟨key, mode, trace, e, hb, ho, hs⟩ | ⟨key, mode, trace, hb, ho, hs⟩ :=
    State.startProcess_cases { s with taken := taken, agenda := rest } c
  all_goals rw [hstart, hs] at ht hdr hp hag hr
  · have herror : process Config.sbox c = ⟨.error e, [], 0, []⟩ := by simp only [process, hb]
    exact ⟨hag, ht, .inl ⟨.inl ⟨e, hb⟩, hdr, herror ▸ hr⟩⟩
  · have herror : process Config.sbox c = ⟨.error e, trace, 0, []⟩ := by simp only [process, hb, ho]
    exact ⟨hag, ht, .inl ⟨.inr ⟨trace, e, ho⟩, hdr, herror ▸ hr⟩⟩
  · exact ⟨hag, ht, .inr ⟨key, mode, trace, hb, ho, hdr, hp, hr⟩⟩

/-- While a `PROCESS` runs its driver makes the move, and the agenda waits (R149). -/
theorem step_while_running {s t : State} {j : Job} (h : step s = .next t) (hd : s.driver = .running j) :
    t.agenda = s.agenda ∧ t.take = .ignore
    ∧ ((∃ r, j.move s.s3 = .stop r ∧ t.driver = .idle ∧ t.returns = s.returns ++ [r])
      ∨ ∃ j', j.move s.s3 = .go j' t.ports ∧ t.driver = .running j' ∧ t.returns = s.returns) := by
  obtain ⟨taken, hmove⟩ := s.hostMove_eq_hostChoose
  obtain ⟨htk, hdr, hp, hag, hr, _⟩ := step_stages h
  simp only [hmove, State.hostChoose, hd, State.blockOut] at htk hdr hp hag hr
  cases hm : j.move s.s3 with
  | go j' p =>
    simp only [hm] at htk hdr hp hag hr
    exact ⟨hag, htk, .inr ⟨j', by rw [hp], hdr, hr⟩⟩
  | stop r =>
    simp only [hm] at htk hdr hp hag hr
    exact ⟨hag, htk, .inl ⟨r, rfl, hdr, hr⟩⟩

/-- Settles O42: the two items of an agenda that are no call, one lemma each. -/
theorem hostPlaysItsAgenda : Obligations.HostPlaysItsAgenda := by
  intro s hd hs
  obtain ⟨t, h⟩ := exists_step_of_safe hs
  constructor
  · intro p k rest ha
    exact ⟨t, h, step_with_cycle_next h hd ha⟩
  · intro ha
    obtain ⟨hp, htake, hag, hdr, hr⟩ := step_with_empty_agenda h hd ha
    exact ⟨t, h, hp ▸ rfl, hp ▸ rfl, htake, hag, hdr, hr⟩

/-! ## A call that is accepted (R141, R142; 70_reset_and_hazards.md R181) -/

/-- The key and the mode of a call that passes the boundary checks are those it names. -/
theorem boundary_of_wellFormed {c : Call} (hk : keyInRange c.keyValue) (hm : modeKnown c.modeValue) :
    ∃ key mode, boundary c = .ok (key, mode) ∧ (key.toNat : Int) = c.keyValue
      ∧ (mode = .encrypt ↔ c.modeValue = "encrypt") := by
  have hkey : ((BitVec.ofInt 32 c.keyValue).toNat : Int) = c.keyValue := by
    rw [BitVec.toNat_ofInt]
    omega
  obtain ⟨hk', _⟩ | ⟨_, hm', _⟩ | ⟨_, he, hb⟩ | ⟨_, hd, hb⟩ := boundary_cases c
  · exact absurd hk hk'
  · exact absurd hm hm'
  · exact ⟨_, _, hb, hkey, by simp [he]⟩
  · exact ⟨_, _, hb, hkey, by simp [hd]⟩

theorem openStreams_of_not_failing {f : List StreamOp} (hi : StreamOp.openInput ∉ f) (ho : StreamOp.openOutput ∉ f) :
    openStreams f = ([.openInput, .openOutput], none) := by
  simp [openStreams, hi, ho]

/-- The cycles before the first command of a call that resets are resets, and those of a call that drains are idle (log 15). -/
theorem State.prepareCycles_reset (s : State) (extra : Nat) :
    s.prepareCycles (.reset extra) = (Ports.reset, List.replicate extra Ports.reset) := rfl

theorem State.prepareCycles_drain (s : State) :
    s.prepareCycles .drain = (Ports.idle, List.replicate (s.busy - 1) Ports.idle) := rfl

/-- Settles O47: neither check nor open fails, so the call runs, and its first cycles are those of its way to prepare. -/
theorem acceptedProcessPreparesTheCoreFirst : Obligations.AcceptedProcessPreparesTheCoreFirst := by
  intro s c rest hd hs ha hk hm hi ho
  obtain ⟨t, h⟩ := exists_step_of_safe hs
  obtain ⟨key, mode, hb, hkey, hmode⟩ := boundary_of_wellFormed hk hm
  have hopen := openStreams_of_not_failing hi ho
  obtain ⟨hag, _, ⟨⟨e, he⟩ | ⟨trace, e, he⟩, _⟩ | ⟨key', mode', trace, hb', _, hdr, hp, hr⟩⟩ := step_with_call_next h hd ha
  · rw [hb] at he
    cases he
  · rw [hopen] at he
    cases he
  · rw [hb] at hb'
    cases hb'
    refine ⟨t, _, h, hdr, hag, hr, rfl, hkey, hmode, rfl, rfl, rfl, rfl, rfl, rfl, fun n hn => ?_, fun hn => ?_⟩
    · rw [hn, s.prepareCycles_reset] at hp
      simp only [hn, s.prepareCycles_reset]
      exact ⟨hp ▸ rfl, List.length_replicate, fun p hmem => (List.mem_replicate.mp hmem).2 ▸ rfl⟩
    · rw [hn, s.prepareCycles_drain] at hp
      simp only [hn, s.prepareCycles_drain]
      exact ⟨hp ▸ rfl, hp ▸ rfl, fun p hmem => (List.mem_replicate.mp hmem).2 ▸ ⟨rfl, rfl⟩⟩

end Sys2Proof.Machine
end

section
/-! PROOFS. The invariant of the File Block Processor at the ports (45_file_block_processor.md R141, R143, R149). What a running job
keeps is split in two: its accounts, which name the results still to come as a list and speak of no stage, and its phase, which
says where in the core these results are. -/

namespace Sys2Proof.Machine

/-! ## The work of one cycle (R149, log 8) -/

/-- What holds before a write and is kept by each holds when one of them fails. -/
theorem Job.writeMany_error_induction {P : Job → Prop} (hstep : ∀ j j', P j → j.writeOne = .ok j' → P j') :
    ∀ (n : Nat) (j : Job) (r : Return), P j → j.writeMany n = .error r → ∃ j', P j' ∧ j'.writeOne = .error r
  | 0, _, _, _, h => by cases h
  | n + 1, j, r, hj, h => by
    rw [writeMany] at h
    cases hw : j.writeOne with
    | error r' => rw [hw] at h; cases h; exact ⟨j, hj, hw⟩
    | ok k => rw [hw] at h; exact writeMany_error_induction hstep n k r (hstep j k hj hw) h

/-- What holds once the result on the port is taken, and is kept by each write and each read, holds when a write fails, when the
`PROCESS` ends, and when the ports of the next cycle are chosen. -/
theorem Job.move_induction {P : Job → Prop} (hwrite : ∀ j j', P j → j.writeOne = .ok j' → P j')
    (hread : ∀ j, P j → P j.readOne) (j : Job) (out : Option Word)
    (hstart : P ({ j with pace := j.pace.tail }.takeResult out)) :
    (∃ j' r, P j' ∧ j'.writeOne = .error r ∧ j.move out = .stop r)
    ∨ (∃ j' result, P j' ∧ j'.outcome = some result ∧ j.move out = .stop (j'.finish result))
    ∨ (∃ j', P j' ∧ j.move out = j'.choosePorts (j.pace.headD Pace.eager).issue) := by
  obtain ⟨r, hw, hm⟩ | ⟨j1, hw, ⟨result, ho, hm⟩ | ⟨_, hm⟩⟩ := j.move_cases out
  · obtain ⟨j', hj', hfail⟩ := writeMany_error_induction hwrite _ _ r hstart hw
    exact .inl ⟨j', r, hj', hfail, hm⟩
  · exact .inr (.inl ⟨_, result, readMany_induction hread _ j1 (writeMany_induction hwrite _ _ j1 hstart hw), ho, hm⟩)
  · exact .inr (.inr ⟨_, readMany_induction hread _ j1 (writeMany_induction hwrite _ _ j1 hstart hw), hm⟩)

/-! ## The accounts of a running job -/

/-- The accounts of a job, `coming` being its results still to come from the core: every chunk read has been issued or is queued,
every chunk read is written, taken, to come or queued, and the bytes of all these in order are the transform of the input read. -/
structure Job.Accounts (j : Job) (coming : List Word) : Prop where
  checked   : boundary j.call = .ok (j.key, j.mode)
  issued    : j.offset = 4 * (j.commands + j.queue.length)
  placed    : j.offset = j.written.length + 4 * (j.results.length + j.inFlight + j.queue.length)
  exhausted : j.feed = .exhausted → j.call.input.length ≤ j.offset
  inFlight  : j.inFlight = coming.length
  covers    : j.covers Config.sbox coming

/-- The accounts do not speak of the pace. -/
theorem Job.Accounts.withPace {j : Job} {coming : List Word} (hj : j.Accounts coming) (pace : List Pace) :
    { j with pace := pace }.Accounts coming :=
  ⟨hj.checked, hj.issued, hj.placed, hj.exhausted, hj.inFlight, hj.covers⟩

/-- Taking the result presented, the first of those to come. -/
theorem Job.Accounts.takeResult {j : Job} {out : Option Word} {rest : List Word} (hj : j.Accounts (out.toList ++ rest)) :
    (j.takeResult out).Accounts rest := by
  obtain ⟨hchk, hiss, hpl, hex, hin, hcov⟩ := hj
  obtain ⟨hnone, h⟩ | ⟨r, rfl, h0, h⟩ := j.takeResult_cases out
  · have hout : out.toList = [] := by
      obtain rfl | h0 := hnone
      · rfl
      · exact List.length_eq_zero_iff.mp (by rw [h0, List.length_append] at hin; omega)
    rw [hout, List.nil_append] at hin hcov
    rw [h]
    exact ⟨hchk, hiss, hpl, hex, hin, hcov⟩
  · rw [h]
    simp only [Option.toList_some, List.length_append, List.length_singleton] at hin
    refine ⟨hchk, hiss, ?_, hex, ?_, ?_⟩
    · simp only [List.length_append, List.length_singleton]
      omega
    · simp only
      omega
    · simpa [Job.covers] using hcov

/-- While no result is to come, what the port presents is of an earlier run and is not taken (70_reset_and_hazards.md R181). -/
theorem Job.Accounts.takeResult_of_none_coming {j : Job} (hj : j.Accounts []) (out : Option Word) : j.takeResult out = j := by
  obtain ⟨_, h⟩ | ⟨_, _, h0, _⟩ := j.takeResult_cases out
  · exact h
  · exact absurd hj.inFlight h0

theorem Job.Accounts.writeOne {j j' : Job} {coming : List Word} (hj : j.Accounts coming) (h : j.writeOne = .ok j') :
    j'.Accounts coming := by
  obtain ⟨hchk, hiss, hpl, hex, hin, hcov⟩ := hj
  obtain ⟨_, hw⟩ | ⟨r, rs, hr, _, hw⟩ | ⟨_, _, hw⟩ := j.writeOne_cases <;> rw [hw] at h <;> cases h
  · exact ⟨hchk, hiss, hpl, hex, hin, hcov⟩
  · rw [hr, List.length_cons] at hpl
    refine ⟨hchk, hiss, ?_, hex, hin, ?_⟩
    · simp only [memWrite, List.length_append, length_bytesOfBlock]
      omega
    · simpa [Job.covers, hr, memWrite] using hcov

theorem Job.Accounts.readOne {j : Job} {coming : List Word} (hj : j.Accounts coming) : j.readOne.Accounts coming := by
  obtain ⟨hchk, hiss, hpl, hex, hin, hcov⟩ := hj
  obtain ⟨_, h⟩ | ⟨_, _, h⟩ | ⟨_, _, hend, h⟩ | ⟨hf, _, hchunk, h⟩ := j.readOne_cases <;> rw [h]
  · exact ⟨hchk, hiss, hpl, hex, hin, hcov⟩
  · exact ⟨hchk, hiss, hpl, nofun, hin, hcov⟩
  · exact ⟨hchk, hiss, hpl, fun _ => (memRead_eq_nil _ _).mp hend, hin, hcov⟩
  · refine ⟨hchk, ?_, ?_, fun hf' => ?_, hin, ?_⟩
    · simp only [List.length_append, List.length_singleton]
      omega
    · simp only [List.length_append, List.length_singleton]
      omega
    · exact absurd (hf.symm.trans hf') nofun
    · rw [hiss] at hchunk
      have hnext := transformBytes_take_add Config.sbox j.mode j.key j.call.input _ hchunk
      rw [← hiss, ← hcov] at hnext
      simp [Job.covers, hnext]

/-- The oldest Block queued becomes a command whose result is the last to come. -/
theorem Job.Accounts.issue {j : Job} {coming : List Word} {b : Word} {bs : List Word} (hj : j.Accounts coming)
    (hq : j.queue = b :: bs) :
    { j with queue := bs, inFlight := j.inFlight + 1, commands := j.commands + 1 }.Accounts
      (coming ++ [cryptBlock Config.sbox j.mode b j.key]) := by
  obtain ⟨hchk, hiss, hpl, hex, hin, hcov⟩ := hj
  rw [hq, List.length_cons] at hiss hpl
  refine ⟨hchk, ?_, ?_, hex, ?_, ?_⟩
  · simp only
    omega
  · simp only
    omega
  · simp [hin]
  · simpa [Job.covers, hq] using hcov

/-- A job that has just started. -/
theorem Job.accounts_start {c : Call} {key : Word} {mode : Mode} (hb : boundary c = .ok (key, mode)) (lead : List Ports)
    (trace : List StreamOp) : (Job.start c key mode lead trace).Accounts [] :=
  ⟨hb, rfl, rfl, nofun, rfl, rfl⟩

/-! ## The two phases of a running job -/

/-- The results still to come after the one on the port. -/
def State.upcoming (T : Sbox) (s : State) : List Word :=
  (s.result2 T).toList ++ (s.result1 T).toList ++ ((portCommand s.ports).map (Stage.result T)).toList

theorem State.pending_eq (T : Sbox) (s : State) : s.pending T = s.s3.toList ++ s.upcoming T := by
  simp only [State.pending, State.upcoming, State.result1, State.result2, List.append_assoc]
  rfl

/-- Before the first command, `Job.Preparing` without the accounts: the cycles of `lead` are enough to empty the pipeline. -/
structure Job.Waits (j : Job) (s : State) (coming : List Word) : Prop where
  commands  : j.commands = 0
  noCommand : portCommand s.ports = none
  leadIdle  : ∀ p ∈ j.lead, portCommand p = none
  busy      : s.busy ≤ j.lead.length
  coming    : coming = []

/-- While commands are issued, `Job.Issuing` without the accounts: all that is in the core is this job's. -/
structure Job.Issues (j : Job) (s : State) (coming : List Word) : Prop where
  lead   : j.lead = []
  rst    : s.ports.rst = false
  own    : ∀ st ∈ s.inFlight, st.key = j.key ∧ st.mode = j.mode
  coming : coming = s.pending Config.sbox

/-- The invariant of a running `PROCESS` is its accounts in one of its two phases. -/
theorem Job.inv_iff (j : Job) (s : State) :
    j.Inv s ↔ s.take = .ignore ∧ ∃ coming, j.Accounts coming ∧ (j.Waits s coming ∨ j.Issues s coming) := by
  constructor
  · rintro ⟨htake, hchk, hiss, hpl, hex, ⟨hc, hp, hl, hbusy, hcov⟩ | ⟨hl, hr, hown, hlen, hcov⟩⟩
    · exact ⟨htake, [], ⟨hchk, hiss, hpl, hex, by rw [List.length_nil]; omega, hcov⟩, .inl ⟨hc, hp, hl, hbusy, rfl⟩⟩
    · exact ⟨htake, _, ⟨hchk, hiss, hpl, hex, hlen.symm, hcov⟩, .inr ⟨hl, hr, hown, rfl⟩⟩
  · rintro ⟨htake, coming, ⟨hchk, hiss, hpl, hex, hin, hcov⟩, ⟨hc, hp, hl, hbusy, rfl⟩ | ⟨hl, hr, hown, rfl⟩⟩
    · exact ⟨htake, hchk, hiss, hpl, hex, .inl ⟨hc, hp, hl, hbusy, hcov⟩⟩
    · exact ⟨htake, hchk, hiss, hpl, hex, .inr ⟨hl, hr, hown, hin.symm, hcov⟩⟩

/-! ## What the work of a cycle leaves to the choice of the ports -/

/-- The fields that taking, writing and reading leave alone: the phase of a job depends on no other. -/
structure Job.SamePlan (j j' : Job) : Prop where
  key      : j'.key = j.key
  mode     : j'.mode = j.mode
  lead     : j'.lead = j.lead
  pace     : j'.pace = j.pace
  commands : j'.commands = j.commands

theorem Job.samePlan_takeResult (j : Job) (out : Option Word) : j.SamePlan (j.takeResult out) := by
  obtain ⟨_, h⟩ | ⟨_, _, _, h⟩ := j.takeResult_cases out <;> rw [h] <;> exact ⟨rfl, rfl, rfl, rfl, rfl⟩

theorem Job.SamePlan.writeOne {j k k' : Job} (hk : j.SamePlan k) (h : k.writeOne = .ok k') : j.SamePlan k' := by
  obtain ⟨_, hw⟩ | ⟨_, _, _, _, hw⟩ | ⟨_, _, hw⟩ := k.writeOne_cases <;> rw [hw] at h <;> cases h
  · exact hk
  · exact ⟨hk.key, hk.mode, hk.lead, hk.pace, hk.commands⟩

theorem Job.SamePlan.readOne {j k : Job} (hk : j.SamePlan k) : j.SamePlan k.readOne := by
  obtain ⟨_, h⟩ | ⟨_, _, h⟩ | ⟨_, _, _, h⟩ | ⟨_, _, _, h⟩ := k.readOne_cases <;> rw [h] <;>
    exact ⟨hk.key, hk.mode, hk.lead, hk.pace, hk.commands⟩

theorem Job.Waits.of_samePlan {j k : Job} {s : State} {coming : List Word} {pace : List Pace} (hj : j.Waits s coming)
    (hk : { j with pace := pace }.SamePlan k) : k.Waits s coming :=
  ⟨hk.commands.trans hj.commands, hj.noCommand, hk.lead ▸ hj.leadIdle, hk.lead ▸ hj.busy, hj.coming⟩

theorem Job.Issues.of_samePlan {j k : Job} {s : State} {coming : List Word} {pace : List Pace} (hj : j.Issues s coming)
    (hk : { j with pace := pace }.SamePlan k) : k.Issues s coming :=
  ⟨hk.lead.trans hj.lead, hj.rst, hk.key ▸ hk.mode ▸ hj.own, hj.coming⟩

/-- Once the result on the port is taken, if it is the job's own, the others are still to come. -/
theorem Job.Accounts.takePresented {j : Job} {s : State} {coming : List Word} (hj : j.Accounts coming)
    (hphase : j.Waits s coming ∨ j.Issues s coming) :
    ({ j with pace := j.pace.tail }.takeResult s.s3).Accounts (coming.drop s.s3.toList.length) := by
  have hpace : { j with pace := j.pace.tail }.Accounts coming := hj.withPace j.pace.tail
  obtain hw | hi := hphase
  · have hnone : coming = [] := hw.coming
    subst hnone
    rw [hpace.takeResult_of_none_coming, List.drop_nil]
    exact hpace
  · have hport : coming = s.s3.toList ++ s.upcoming Config.sbox := hi.coming.trans (s.pending_eq _)
    subst hport
    rw [List.drop_left]
    exact hpace.takeResult

/-- A driver that goes on has chosen the ports with the accounts in order. -/
theorem Job.accounts_of_move_go {j j' : Job} {s : State} {coming : List Word} {p : Ports} (hj : j.Accounts coming)
    (hphase : j.Waits s coming ∨ j.Issues s coming) (hgo : j.move s.s3 = .go j' p) :
    ∃ k issue, k.Accounts (coming.drop s.s3.toList.length) ∧ { j with pace := j.pace.tail }.SamePlan k
      ∧ k.choosePorts issue = .go j' p := by
  obtain ⟨_, _, _, _, hm⟩ | ⟨_, _, _, _, hm⟩ | ⟨k, ⟨hacc, hplan⟩, hm⟩ :=
    Job.move_induction (P := fun k => k.Accounts (coming.drop s.s3.toList.length) ∧ { j with pace := j.pace.tail }.SamePlan k)
      (fun _ _ ⟨hk, hplan⟩ hw => ⟨hk.writeOne hw, hplan.writeOne hw⟩) (fun _ ⟨hk, hplan⟩ => ⟨hk.readOne, hplan.readOne⟩)
      j s.s3 ⟨hj.takePresented hphase, Job.samePlan_takeResult _ s.s3⟩
  all_goals rw [hm] at hgo
  · cases hgo
  · cases hgo
  · exact ⟨k, _, hacc, hplan, hgo⟩

/-! ## The phases at a clock edge -/

/-- At an edge the blocks in flight move on with their keys and modes, or are discarded; the command on the ports is new. -/
theorem State.inFlight_own_step {s t : State} {key : Word} {mode : Mode} (h : step s = .next t)
    (hown : ∀ st ∈ s.inFlight, st.key = key ∧ st.mode = mode)
    (hcmd : ∀ c ∈ portCommand t.ports, c.key = key ∧ c.mode = mode) :
    ∀ st ∈ t.inFlight, st.key = key ∧ st.mode = mode := by
  obtain ⟨_, _, _, _, _, ⟨_, h1, h2, _⟩ | ⟨_, h1, h2, _⟩⟩ := step_stages h
  · simpa [State.inFlight, h1, h2] using hcmd
  · intro st hst
    simp only [State.inFlight, h1, h2, List.mem_append, Option.mem_toList, Option.map_eq_some_iff] at hst
    obtain (⟨old, hold, rfl⟩ | ⟨old, hold, rfl⟩) | hnew := hst
    · exact hown old (by simp [State.inFlight, hold])
    · exact hown old (by simp [State.inFlight, hold])
    · exact hcmd st hnew

/-- At an edge without a reset the results after the one on the port stay to come, behind that of the new command. -/
theorem State.pending_after_step {s t : State} (h : step s = .next t) (hr : s.ports.rst = false) :
    t.pending Config.sbox
      = s.upcoming Config.sbox ++ ((portCommand t.ports).map (Stage.result Config.sbox)).toList := by
  obtain ⟨h1, h2, h3⟩ := step_results h
  rw [hr, if_neg Bool.false_ne_true] at h2 h3
  rw [State.pending_eq, State.upcoming, State.upcoming, h1, h2, h3, List.append_assoc, List.append_assoc, List.append_assoc]

/-- Before the first command the driver goes on waiting, or presents it to an empty pipeline. -/
theorem Job.Waits.choosePorts {k j' : Job} {s t : State} {issue : Bool} (hk : k.Accounts []) (hw : k.Waits s [])
    (h : step s = .next t) (hgo : k.choosePorts issue = .go j' t.ports) :
    ∃ coming, j'.Accounts coming ∧ (j'.Waits t coming ∨ j'.Issues t coming) := by
  obtain ⟨hc, _, hl, hbusy, _⟩ := hw
  obtain ⟨p, ps, hlead, hch⟩ | ⟨hlead, _, hch⟩ | ⟨b, bs, hlead, hq, _, hch⟩ := k.choosePorts_cases issue
  all_goals
    rw [hch, DriverMove.go.injEq] at hgo
    obtain ⟨rfl, hp⟩ := hgo
    rw [hlead] at hl hbusy
  · have hidle : portCommand t.ports = none := hp ▸ hl p List.mem_cons_self
    have hnext := State.busy_step h hidle
    rw [List.length_cons] at hbusy
    exact ⟨[], ⟨hk.checked, hk.issued, hk.placed, hk.exhausted, hk.inFlight, hk.covers⟩,
      .inl ⟨hc, hidle, fun q hq => hl q (List.mem_cons_of_mem p hq), by simp only; omega, rfl⟩⟩
  · have hidle : portCommand t.ports = none := hp ▸ portCommand_idle
    have hnext := State.busy_step h hidle
    rw [List.length_nil] at hbusy
    exact ⟨[], hk, .inl ⟨hc, hidle, by rwa [hlead], by omega, rfl⟩⟩
  · have hcmd : portCommand t.ports = some ⟨k.mode, k.key, b⟩ := hp ▸ portCommand_command k.mode k.key b
    obtain ⟨h1, h2, h3⟩ := State.stages_of_busy_zero h (Nat.le_zero.mp hbusy)
    refine ⟨_, hk.issue hq, .inr ⟨hlead, hp ▸ rfl, ?_, ?_⟩⟩
    · simp [State.inFlight, h1, h2, hcmd]
    · simp [State.pending, h1, h2, h3, hcmd]

/-- While commands are issued the driver adds one of its own to those in flight, or none. -/
theorem Job.Issues.choosePorts {k j' : Job} {s t : State} {coming : List Word} {issue : Bool}
    (hk : k.Accounts (s.upcoming Config.sbox)) (hi : k.Issues s coming) (h : step s = .next t)
    (hgo : k.choosePorts issue = .go j' t.ports) : ∃ coming, j'.Accounts coming ∧ j'.Issues t coming := by
  obtain ⟨hl, hr, hown, _⟩ := hi
  have hpend := State.pending_after_step h hr
  obtain ⟨p, ps, hlead, _⟩ | ⟨_, _, hch⟩ | ⟨b, bs, _, hq, _, hch⟩ := k.choosePorts_cases issue
  · rw [hl] at hlead
    cases hlead
  all_goals
    rw [hch, DriverMove.go.injEq] at hgo
    obtain ⟨rfl, hp⟩ := hgo
  · have hidle : portCommand t.ports = none := hp ▸ portCommand_idle
    rw [hidle, Option.map_none, Option.toList_none, List.append_nil] at hpend
    exact ⟨_, hk, hl, hp ▸ rfl, State.inFlight_own_step h hown (by simp [hidle]), hpend.symm⟩
  · have hcmd : portCommand t.ports = some ⟨k.mode, k.key, b⟩ := hp ▸ portCommand_command k.mode k.key b
    rw [hcmd] at hpend
    exact ⟨_, hk.issue hq, hl, hp ▸ rfl, State.inFlight_own_step h hown (by simp [hcmd]), hpend.symm⟩

/-- Each cycle uses up one entry of the pace. -/
theorem Job.pace_of_move_go {j j' : Job} {s : State} {coming : List Word} {p : Ports} (hj : j.Accounts coming)
    (hphase : j.Waits s coming ∨ j.Issues s coming) (hgo : j.move s.s3 = .go j' p) : j'.pace = j.pace.tail := by
  obtain ⟨k, issue, _, hplan, hch⟩ := Job.accounts_of_move_go hj hphase hgo
  obtain ⟨_, _, _, h⟩ | ⟨_, _, h⟩ | ⟨_, _, _, _, _, h⟩ := k.choosePorts_cases issue
  all_goals
    rw [h] at hch
    cases hch
    exact hplan.pace

/-- A running job that goes on keeps its invariant. -/
theorem Job.inv_of_move_go {j j' : Job} {s t : State} (hj : j.Inv s) (h : step s = .next t) (htake : t.take = .ignore)
    (hgo : j.move s.s3 = .go j' t.ports) : j'.Inv t := by
  obtain ⟨_, coming, hacc, hphase⟩ := (j.inv_iff s).mp hj
  obtain ⟨k, issue, hk, hplan, hch⟩ := Job.accounts_of_move_go hacc hphase hgo
  refine (j'.inv_iff t).mpr ⟨htake, ?_⟩
  obtain hw | hi := hphase
  · have hnone : coming = [] := hw.coming
    subst hnone
    rw [List.drop_nil] at hk
    exact (hw.of_samePlan hplan).choosePorts hk h hch
  · rw [hi.coming, s.pending_eq, List.drop_left] at hk
    obtain ⟨coming', hacc', hi'⟩ := (hi.of_samePlan hplan).choosePorts hk h hch
    exact ⟨coming', hacc', .inr hi'⟩

/-! ## The start of a job -/

/-- The cycles that make the pipeline empty hold no command, and there are enough of them (log 15). -/
theorem State.prepareCycles_waits {s t : State} {c : Call} {key : Word} {mode : Mode} {trace : List StreamOp}
    (h : step s = .next t) (hp : t.ports = (s.prepareCycles c.prepare).1) :
    (Job.start c key mode (s.prepareCycles c.prepare).2 trace).Waits t [] := by
  cases hprep : c.prepare with
  | reset extra =>
    rw [hprep] at hp
    have hidle : portCommand t.ports = none := hp ▸ portCommand_reset
    refine ⟨rfl, hidle, fun p hmem => ?_, ?_, rfl⟩
    · rw [(List.mem_replicate.mp hmem).2]
      exact portCommand_reset
    · have hnow : t.busy = 0 := by simp [State.busy, hp, State.prepareCycles, Ports.reset]
      omega
  | drain =>
    rw [hprep] at hp
    have hidle : portCommand t.ports = none := hp ▸ portCommand_idle
    refine ⟨rfl, hidle, fun p hmem => ?_, ?_, rfl⟩
    · rw [(List.mem_replicate.mp hmem).2]
      exact portCommand_idle
    · have hlen : (List.replicate (s.busy - 1) Ports.idle).length = s.busy - 1 := List.length_replicate
      exact hlen ▸ State.busy_step h hidle

/-- A call that starts to run has the invariant. -/
theorem Job.inv_start {s t : State} {c : Call} {key : Word} {mode : Mode} {trace : List StreamOp} (h : step s = .next t)
    (hb : boundary c = .ok (key, mode)) (htake : t.take = .ignore) (hp : t.ports = (s.prepareCycles c.prepare).1) :
    (Job.start c key mode (s.prepareCycles c.prepare).2 trace).Inv t :=
  (Job.inv_iff _ t).mpr ⟨htake, [], Job.accounts_start hb _ trace, .inl (State.prepareCycles_waits h hp)⟩

theorem State.inv_of_driver_running {s : State} {j : Job} (h : s.driver = .running j) : s.Inv ↔ j.Inv s := by
  rw [State.Inv, h]

/-- Settles O48: a host at rest leads to one at rest or to a job just started, and a running job ends or goes on. -/
theorem everyStepKeepsTheDriverInvariant : Obligations.EveryStepKeepsTheDriverInvariant := by
  intro s t hs h
  cases hd : s.driver with
  | idle =>
    match ha : s.agenda with
    | [] =>
      obtain ⟨_, _, _, hdr, _⟩ := step_with_empty_agenda h hd ha
      exact State.inv_of_driver_idle hdr
    | .cycle p k :: rest =>
      obtain ⟨_, _, _, hdr, _⟩ := step_with_cycle_next h hd ha
      exact State.inv_of_driver_idle hdr
    | .process c :: rest =>
      obtain ⟨_, htake, ⟨_, hdr, _⟩ | ⟨key, mode, trace, hb, _, hdr, hp, _⟩⟩ := step_with_call_next h hd ha
      · exact State.inv_of_driver_idle hdr
      · exact (State.inv_of_driver_running hdr).mpr (Job.inv_start h hb htake hp)
  | running j =>
    have hj : j.Inv s := (State.inv_of_driver_running hd).mp hs
    obtain ⟨_, htake, ⟨_, _, hdr, _⟩ | ⟨j', hgo, hdr, _⟩⟩ := step_while_running h hd
    · exact State.inv_of_driver_idle hdr
    · exact (State.inv_of_driver_running hdr).mpr (Job.inv_of_move_go hj h htake hgo)

end Sys2Proof.Machine
end

section
/-! PROOFS. `PROCESS` as the procedure (45_file_block_processor.md R143 to R146): what its loop has done when it reaches a chunk, the
transform of a whole stream, the padding of a short chunk, and the round trip of a stream. -/

namespace Sys2Proof.Machine

/-! ## Short chunks (R144) -/

/-- Settles O53: the padding bytes add nothing to the sum of the bytes, whose places do not overlap. -/
theorem shortChunkIsPaddedOnTheRight : Obligations.ShortChunkIsPaddedOnTheRight := by
  intro x y z
  have hblock (b0 b1 b2 b3 : Byte) : (blockOfBytes b0 b1 b2 b3).toNat
      = b0.toNat <<< 24 + (b1.toNat <<< 16 + (b2.toNat <<< 8 + b3.toNat)) := by
    rw [toNat_blockOfBytes]
    simp only [Nat.shiftLeft_eq, Nat.add_assoc]
  have hplace (b : Byte) (n : Nat) : b.toNat <<< n < 2 ^ (n + 8) := by
    rw [Nat.shiftLeft_eq, Nat.pow_add, Nat.mul_comm]
    exact Nat.mul_lt_mul_of_pos_left b.isLt (Nat.two_pow_pos n)
  have hyz : y.toNat <<< 16 ||| z.toNat <<< 8 = y.toNat <<< 16 + z.toNat <<< 8 :=
    (Nat.shiftLeft_add_eq_or_of_lt (hplace z 8) _).symm
  have hlow : y.toNat <<< 16 + z.toNat <<< 8 < 2 ^ 24 :=
    hyz ▸ Nat.or_lt_two_pow (hplace y 16) (Nat.lt_trans (hplace z 8) (by decide))
  refine ⟨hblock x 0 0 0, (hblock x y 0 0).trans ?_, (hblock x y z 0).trans ?_⟩
  · exact Nat.shiftLeft_add_eq_or_of_lt (hplace y 16) _
  · rw [Nat.or_assoc, hyz]
    exact Nat.shiftLeft_add_eq_or_of_lt hlow _

/-- The four bytes of a Block made of four bytes are these bytes (20_memory.md R41). -/
theorem bytesOfBlock_blockOfBytes (b0 b1 b2 b3 : Byte) : bytesOfBlock (blockOfBytes b0 b1 b2 b3) = [b0, b1, b2, b3] := by
  have hbyte (lo : Nat) : ((blockOfBytes b0 b1 b2 b3).extractLsb' lo 8).toNat
      = (blockOfBytes b0 b1 b2 b3).toNat / 2 ^ lo % 2 ^ 8 := by
    rw [BitVec.extractLsb'_toNat, Nat.shiftRight_eq_div_pow]
  have h := toNat_blockOfBytes b0 b1 b2 b3
  simp only [bytesOfBlock, List.cons.injEq, and_true]
  refine ⟨?_, ?_, ?_, ?_⟩ <;> (refine BitVec.eq_of_toNat_eq ?_; rw [hbyte, h]; omega)

/-- The bytes of a chunk's Block are the padded chunk. -/
theorem bytesOfBlock_blockOfChunk : ∀ c : List Byte, c.length ≤ 4 → bytesOfBlock (blockOfChunk c) = padChunk c
  | [], _ | [_], _ | [_, _], _ | [_, _, _], _ | [_, _, _, _], _ => bytesOfBlock_blockOfBytes _ _ _ _
  | _ :: _ :: _ :: _ :: _ :: _, h => by simp only [List.length_cons] at h; omega

/-! ## The chunks of a stream (20_memory.md R43) -/

theorem length_chunks : ∀ input : List Byte, (chunks input).length = (input.length + 3) / 4
  | [] | [_] | [_, _] | [_, _, _] => by simp [chunks]
  | _ :: _ :: _ :: _ :: rest => by
    simp only [chunks, List.length_cons, length_chunks rest]
    omega

theorem length_of_mem_chunks : ∀ {input c : List Byte}, c ∈ chunks input → c.length ≤ 4
  | [], _, h => by cases h
  | [_], _, h | [_, _], _, h | [_, _, _], _, h => by
    rw [List.mem_singleton.mp h]
    simp
  | _ :: _ :: _ :: _ :: rest, c, h => by
    obtain rfl | h := List.mem_cons.mp h
    · exact Nat.le_refl 4
    · exact length_of_mem_chunks h

/-- Only the last chunk is padded, up to a multiple of four bytes (R144). -/
theorem flatMap_padChunk_chunks : ∀ input : List Byte,
    (chunks input).flatMap padChunk = input ++ List.replicate ((4 - input.length % 4) % 4) 0
  | [] | [_] | [_, _] | [_, _, _] => rfl
  | b0 :: b1 :: b2 :: b3 :: rest => by
    have hlen : (rest.length + 1 + 1 + 1 + 1) % 4 = rest.length % 4 := by omega
    rw [chunks, List.flatMap_cons, flatMap_padChunk_chunks rest]
    simp only [List.length_cons, hlen]
    rfl

/-- A stream of whole Blocks has the bytes of each Block as its chunks. -/
theorem chunks_flatMap_bytesOfBlock (blocks : List Word) : chunks (blocks.flatMap bytesOfBlock) = blocks.map bytesOfBlock := by
  induction blocks with
  | nil => rfl
  | cons b bs ih => rw [List.flatMap_cons, chunks_append 1 _ _ rfl, ih]; rfl

/-! ## The transform of a stream (R145, R146) -/

theorem length_transformBytes (T : Sbox) (mode : Mode) (key : Word) (input : List Byte) :
    (transformBytes T mode key input).length = (input.length + 3) / 4 * 4 := by
  rw [transformBytes, ← length_chunks]
  induction chunks input with
  | nil => rfl
  | cons c cs ih =>
    rw [List.flatMap_cons, List.length_append, ih, length_bytesOfBlock, List.length_cons]
    omega

/-- The transform of the first `k` chunks is the first `4 * k` bytes of that of the stream. -/
theorem transformBytes_take (T : Sbox) (mode : Mode) (key : Word) (input : List Byte) (k : Nat) :
    transformBytes T mode key (input.take (4 * k)) = (transformBytes T mode key input).take (4 * k) := by
  obtain hle | hlt := Nat.le_total (4 * k) input.length
  · have hfront : (input.take (4 * k)).length = 4 * k := by rw [List.length_take, Nat.min_eq_left hle]
    have hsplit : transformBytes T mode key input
        = transformBytes T mode key (input.take (4 * k)) ++ transformBytes T mode key (input.drop (4 * k)) := by
      conv_lhs => rw [← List.take_append_drop (4 * k) input, transformBytes, chunks_append k _ _ hfront, List.flatMap_append]
      rfl
    rw [hsplit, List.take_left' (by rw [length_transformBytes]; omega)]
  · rw [List.take_of_length_le hlt, List.take_of_length_le (by rw [length_transformBytes]; omega)]

/-- Decrypting an encrypted stream gives it back with its last chunk padded (R128, R144). -/
theorem transformBytes_decrypt_encrypt (T : Sbox) (key : Word) (input : List Byte) :
    transformBytes T .decrypt key (transformBytes T .encrypt key input)
      = input ++ List.replicate ((4 - input.length % 4) % 4) 0 := by
  have hchunks : chunks (transformBytes T .encrypt key input)
      = (chunks input).map fun c => bytesOfBlock (encBlock T (blockOfChunk c) key) := by
    rw [transformBytes, ← List.flatMap_map, chunks_flatMap_bytesOfBlock, List.map_map]
    rfl
  have hback (c : List Byte) (hc : c ∈ chunks input) :
      bytesOfBlock (decBlock T (blockOfChunk (bytesOfBlock (encBlock T (blockOfChunk c) key))) key) = padChunk c := by
    rw [blockOfChunk_bytesOfBlock, decBlock_encBlock, bytesOfBlock_blockOfChunk c (length_of_mem_chunks hc)]
  rw [transformBytes, hchunks, List.flatMap_map, ← flatMap_padChunk_chunks]
  exact List.flatMap_congr hback

/-! ## One pass of the loop (R143) -/

section
variable {T : Sbox} {c : Call} {key : Word} {mode : Mode} {a : Nat} (fuel : Nat) (out : List Byte) (trace : List StreamOp)
  (commands : Nat)

/-- A chunk is read, transformed and written. -/
theorem processLoop_pass (hr : StreamOp.read a ∉ c.failing) (hm : memRead c.input a ≠ []) (hw : StreamOp.write a ∉ c.failing) :
    processLoop T c key mode (fuel + 1) a out trace commands
      = processLoop T c key mode fuel (a + 4) (memWrite out (cryptBlock T mode (blockOfChunk (memRead c.input a)) key))
          (trace ++ [.read a] ++ [.write a]) (commands + 1) := by
  obtain ⟨b, bs, hc⟩ := List.exists_cons_of_ne_nil hm
  simp only [processLoop, hr, hc, hw, if_false]

/-- The read fails (60_exceptions.md R164). -/
theorem processLoop_read_fails (hr : StreamOp.read a ∈ c.failing) :
    processLoop T c key mode (fuel + 1) a out trace commands
      = ⟨.error (.ioFailure (.read a)), trace ++ [.read a] ++ closeOps, commands, out⟩ := by
  simp only [processLoop, hr, if_true]

/-- The read finds the input exhausted. -/
theorem processLoop_exhausted (hr : StreamOp.read a ∉ c.failing) (hm : memRead c.input a = []) :
    processLoop T c key mode (fuel + 1) a out trace commands = ⟨.ok out, trace ++ [.read a] ++ closeOps, commands, out⟩ := by
  simp only [processLoop, hr, hm, if_false]

/-- The write fails (60_exceptions.md R164). -/
theorem processLoop_write_fails (hr : StreamOp.read a ∉ c.failing) (hm : memRead c.input a ≠ [])
    (hw : StreamOp.write a ∈ c.failing) :
    processLoop T c key mode (fuel + 1) a out trace commands
      = ⟨.error (.ioFailure (.write a)), trace ++ [.read a] ++ [.write a] ++ closeOps, commands + 1, out⟩ := by
  obtain ⟨b, bs, hc⟩ := List.exists_cons_of_ne_nil hm
  simp only [processLoop, hr, hc, hw, if_false, if_true]

end

/-! ## The loop up to a chunk -/

/-- The first `k` chunks are there, and no operation on them fails. -/
def PassesChunks (c : Call) (k : Nat) : Prop :=
  ∀ m, m < k → StreamOp.read (4 * m) ∉ c.failing ∧ StreamOp.write (4 * m) ∉ c.failing ∧ 4 * m < c.input.length

/-- The stream operations of the first `k` passes. -/
def passOps (k : Nat) : List StreamOp := (List.range k).flatMap fun m => [.read (4 * m), .write (4 * m)]

theorem passOps_succ (k : Nat) : passOps (k + 1) = passOps k ++ [.read (4 * k)] ++ [.write (4 * k)] := by
  simp [passOps, List.range_succ]

/-- After `k` passes the loop is at chunk `k` with the transform of the chunks before it. -/
theorem processLoop_after_passes (T : Sbox) (c : Call) (key : Word) (mode : Mode) (trace : List StreamOp) :
    ∀ (k fuel : Nat), PassesChunks c k →
      processLoop T c key mode (fuel + k) 0 [] trace 0
        = processLoop T c key mode fuel (4 * k) (transformBytes T mode key (c.input.take (4 * k))) (trace ++ passOps k) k
  | 0, fuel, _ => by
    rw [passOps, List.range_zero, List.flatMap_nil, List.append_nil]
    rfl
  | k + 1, fuel, hk => by
    obtain ⟨hr, hw, hlen⟩ := hk k (Nat.lt_succ_self k)
    have hm : memRead c.input (4 * k) ≠ [] := fun h => Nat.not_lt.mpr ((memRead_eq_nil _ _).mp h) hlen
    have hfuel : fuel + (k + 1) = (fuel + 1) + k := by omega
    rw [hfuel, processLoop_after_passes T c key mode trace k (fuel + 1) fun m h => hk m (Nat.lt_succ_of_lt h),
      processLoop_pass fuel _ _ _ hr hm hw, memWrite, ← transformBytes_take_add T mode key c.input k hm, passOps_succ,
      List.append_assoc, List.append_assoc, List.append_assoc]
    rfl

/-- An accepted call that passes `k` chunks reaches the next with fuel left (R143). -/
theorem process_after_passes (T : Sbox) {c : Call} {key : Word} {mode : Mode} {trace : List StreamOp} {k : Nat}
    (hb : boundary c = .ok (key, mode)) (ho : openStreams c.failing = (trace, none)) (hk : PassesChunks c k) :
    ∃ fuel, process T c
      = processLoop T c key mode (fuel + 1) (4 * k) (transformBytes T mode key (c.input.take (4 * k)))
          (trace ++ passOps k) k := by
  have hle : k ≤ (c.input.length + 3) / 4 := by
    cases k with
    | zero => exact Nat.zero_le _
    | succ k =>
      obtain ⟨_, _, hlen⟩ := hk k (Nat.lt_succ_self k)
      omega
  have hfuel : processFuel c.input = ((c.input.length + 3) / 4 - k + 1) + k := by
    rw [processFuel]
    omega
  have hloop : process T c = processLoop T c key mode (processFuel c.input) 0 [] trace 0 := by simp only [process, hb, ho]
  exact ⟨_, by rw [hloop, hfuel, processLoop_after_passes T c key mode trace k _ hk]⟩

/-- A call that passes `k` chunks and finds the input exhausted there returns their transform (R143, R145). -/
theorem process_of_exhausted (T : Sbox) {c : Call} {key : Word} {mode : Mode} {trace : List StreamOp} {k : Nat}
    (hb : boundary c = .ok (key, mode)) (ho : openStreams c.failing = (trace, none)) (hk : PassesChunks c k)
    (hr : StreamOp.read (4 * k) ∉ c.failing) (hend : c.input.length ≤ 4 * k) :
    process T c = ⟨.ok (transformBytes T mode key c.input), trace ++ passOps k ++ [.read (4 * k)] ++ closeOps, k,
      transformBytes T mode key c.input⟩ := by
  obtain ⟨fuel, h⟩ := process_after_passes T hb ho hk
  rw [h, processLoop_exhausted fuel _ _ _ hr ((memRead_eq_nil _ _).mpr hend), List.take_of_length_le hend]

/-- Settles O54: no operation fails, so the call passes every chunk and finds the input exhausted after the last. -/
theorem processTransformsEveryChunk : Obligations.ProcessTransformsEveryChunk := by
  intro T c key mode hb hf
  have hopen : openStreams c.failing = ([.openInput, .openOutput], none) :=
    openStreams_of_not_failing (by simp [hf]) (by simp [hf])
  have hpasses : PassesChunks c ((c.input.length + 3) / 4) := fun m hm => ⟨by simp [hf], by simp [hf], by omega⟩
  have h := process_of_exhausted T hb hopen hpasses (by simp [hf]) (by omega)
  exact ⟨_, by rw [h], rfl, length_transformBytes T mode key c.input, by rw [h]⟩

/-- Settles O55: both runs return the transform of their streams, and the second undoes the first up to the padding. -/
theorem decryptedStreamIsThePaddedInput : Obligations.DecryptedStreamIsThePaddedInput := by
  intro T c hf hk hm
  have hb : boundary c = .ok (BitVec.ofInt 32 c.keyValue, .encrypt) := by
    rw [boundary, if_neg (not_not.mpr hk), if_pos hm]
  obtain ⟨out, hout, rfl, _⟩ := processTransformsEveryChunk T c _ _ hb hf
  refine ⟨_, hout, ?_⟩
  have hb' : boundary { c with
      input := transformBytes T .encrypt (BitVec.ofInt 32 c.keyValue) c.input, modeValue := "decrypt" } = .ok (BitVec.ofInt 32 c.keyValue, .decrypt) := by
    rw [boundary, if_neg (not_not.mpr hk), if_neg (by simp), if_pos rfl]
  obtain ⟨back, hback, rfl, _⟩ := processTransformsEveryChunk T _ _ _ hb' hf
  rw [hback, transformBytes_decrypt_encrypt]

end Sys2Proof.Machine
end

section
/-! PROOFS. `PROCESS` at the ports against the procedure (45_file_block_processor.md R143, R147, R149; 60_exceptions.md R164). A
running job has passed every operation on the chunks behind it, so when it ends it returns what the procedure does; and it ends,
because once its pace has run out every cycle leaves less to do. -/

namespace Sys2Proof.Machine

/-! ## The operations a running job has passed -/

/-- No operation of the call that the job has performed has failed, but for the read that its feed records. -/
structure Job.Unfailed (j : Job) (c : Call) : Prop where
  call      : j.call = c
  opened    : openStreams c.failing = ([.openInput, .openOutput], none)
  reads     : ∀ m, 4 * m < j.offset → StreamOp.read (4 * m) ∉ c.failing ∧ 4 * m < c.input.length
  writes    : ∀ m, 4 * m < j.written.length → StreamOp.write (4 * m) ∉ c.failing
  exhausted : j.feed = .exhausted → StreamOp.read j.offset ∉ c.failing
  failed    : ∀ e, j.feed = .failed e → e = .ioFailure (.read j.offset) ∧ StreamOp.read j.offset ∈ c.failing

theorem Job.unfailed_start {c : Call} {trace : List StreamOp} (key : Word) (mode : Mode) (lead : List Ports)
    (ho : openStreams c.failing = (trace, none)) : (Job.start c key mode lead trace).Unfailed c := by
  refine ⟨rfl, ?_, fun m hm => absurd hm (Nat.not_lt_zero _), fun m hm => absurd hm (Nat.not_lt_zero _), nofun, nofun⟩
  obtain ⟨_, h⟩ | ⟨_, _, h⟩ | ⟨_, _, h⟩ := openStreams_cases c.failing
  · rw [ho] at h
    cases h
  · rw [ho] at h
    cases h
  · exact h

theorem Job.Unfailed.takeResult {j : Job} {c : Call} (hj : j.Unfailed c) (out : Option Word) :
    (j.takeResult out).Unfailed c := by
  obtain ⟨_, h⟩ | ⟨_, _, _, h⟩ := j.takeResult_cases out <;> rw [h]
  · exact hj
  · exact ⟨hj.call, hj.opened, hj.reads, hj.writes, hj.exhausted, hj.failed⟩

/-- The bytes written are whole Blocks, and no more than were read. -/
theorem Job.Accounts.written_length {j : Job} {coming : List Word} (hj : j.Accounts coming) :
    ∃ k, j.written.length = 4 * k ∧ 4 * k ≤ j.offset := by
  obtain ⟨_, hiss, hpl, _, _, _⟩ := hj
  exact ⟨j.written.length / 4, by omega, by omega⟩

theorem Job.Unfailed.writeOne {j j' : Job} {c : Call} {coming : List Word} (hj : j.Unfailed c) (hacc : j.Accounts coming)
    (h : j.writeOne = .ok j') : j'.Unfailed c := by
  obtain ⟨hcall, hopen, hreads, hwrites, hex, hfail⟩ := hj
  subst hcall
  obtain ⟨_, hw⟩ | ⟨r, rs, _, hpass, hw⟩ | ⟨_, _, hw⟩ := j.writeOne_cases <;> rw [hw] at h <;> cases h
  · exact ⟨rfl, hopen, hreads, hwrites, hex, hfail⟩
  · obtain ⟨k, hk, _⟩ := hacc.written_length
    refine ⟨rfl, hopen, hreads, fun m hm => ?_, hex, hfail⟩
    simp only [memWrite, List.length_append, length_bytesOfBlock, hk] at hm
    obtain hlt | rfl : m < k ∨ m = k := by omega
    · exact hwrites m (by omega)
    · exact hk ▸ hpass

theorem Job.Unfailed.readOne {j : Job} {c : Call} {coming : List Word} (hj : j.Unfailed c) (hacc : j.Accounts coming) :
    j.readOne.Unfailed c := by
  obtain ⟨hcall, hopen, hreads, hwrites, hex, hfail⟩ := hj
  subst hcall
  obtain ⟨_, h⟩ | ⟨_, hin, h⟩ | ⟨_, hpass, _, h⟩ | ⟨hf, hpass, hchunk, h⟩ := j.readOne_cases <;> rw [h]
  · exact ⟨rfl, hopen, hreads, hwrites, hex, hfail⟩
  · exact ⟨rfl, hopen, hreads, hwrites, nofun, fun e he => ⟨(Feed.failed.inj he).symm, hin⟩⟩
  · exact ⟨rfl, hopen, hreads, hwrites, fun _ => hpass, nofun⟩
  · refine ⟨rfl, hopen, fun m hm => ?_, hwrites, fun he => absurd (hf.symm.trans he) nofun,
      fun e he => absurd (hf.symm.trans he) nofun⟩
    simp only [hacc.issued] at hm hpass hchunk
    obtain hlt | rfl : m < j.commands + j.queue.length ∨ m = j.commands + j.queue.length := by omega
    · exact hreads m (by rw [hacc.issued]; omega)
    · exact ⟨hpass, Nat.lt_of_not_le fun hle => hchunk ((memRead_eq_nil _ _).mpr hle)⟩

/-- Choosing the ports ends no `PROCESS`. -/
theorem Job.choosePorts_ne_stop (j : Job) (issue : Bool) (r : Return) : j.choosePorts issue ≠ .stop r := by
  obtain ⟨_, _, _, h⟩ | ⟨_, _, h⟩ | ⟨_, _, _, _, _, h⟩ := j.choosePorts_cases issue <;> rw [h] <;> nofun

theorem Job.Unfailed.choosePorts {j j' : Job} {c : Call} {issue : Bool} {p : Ports} (hj : j.Unfailed c)
    (h : j.choosePorts issue = .go j' p) : j'.Unfailed c := by
  obtain ⟨_, _, _, hch⟩ | ⟨_, _, hch⟩ | ⟨_, _, _, _, _, hch⟩ := j.choosePorts_cases issue <;> rw [hch] at h <;> cases h
  · exact ⟨hj.call, hj.opened, hj.reads, hj.writes, hj.exhausted, hj.failed⟩
  · exact hj
  · exact ⟨hj.call, hj.opened, hj.reads, hj.writes, hj.exhausted, hj.failed⟩

/-! ## The end of a job is the end of the procedure -/

/-- Two ends of a `PROCESS` with the same result and the same complete blocks written. -/
def Return.Agrees (r r' : Return) : Prop := r.result = r'.result ∧ r.written = r'.written

/-- The chunks written are passes of the procedure. -/
theorem Job.Unfailed.passes {j : Job} {c : Call} {k : Nat} (hj : j.Unfailed c) (hw : j.written.length = 4 * k)
    (hle : 4 * k ≤ j.offset) : PassesChunks c k := by
  intro m hm
  obtain ⟨hr, hlen⟩ := hj.reads m (by omega)
  exact ⟨hr, hj.writes m (by omega), hlen⟩

/-- The bytes written are the transform of the chunks they stand for. -/
theorem Job.Accounts.written_eq {j : Job} {coming : List Word} {k : Nat} (hj : j.Accounts coming)
    (hw : j.written.length = 4 * k) (hle : 4 * k ≤ j.offset) :
    j.written = transformBytes Config.sbox j.mode j.key (j.call.input.take (4 * k)) := by
  have hcov := congrArg (List.take (4 * k)) hj.covers
  rwa [List.take_left' hw, ← transformBytes_take, List.take_take, Nat.min_eq_left hle] at hcov

/-- At the chunk to be written next the procedure has written what the job has. -/
theorem Job.Unfailed.process_eq {j : Job} {c : Call} {coming : List Word} (hj : j.Unfailed c) (hacc : j.Accounts coming) :
    ∃ k fuel trace, j.written.length = 4 * k ∧ 4 * k ≤ j.offset
      ∧ process Config.sbox c = processLoop Config.sbox c j.key j.mode (fuel + 1) (4 * k) j.written trace k := by
  obtain ⟨k, hk, hle⟩ := hacc.written_length
  obtain ⟨fuel, h⟩ := process_after_passes Config.sbox (hj.call ▸ hacc.checked) hj.opened (hj.passes hk hle)
  rw [← hj.call, ← hacc.written_eq hk hle, hj.call] at h
  exact ⟨k, fuel, _, hk, hle, h⟩

/-- A write that fails in the job fails in the procedure (60_exceptions.md R164, R168). -/
theorem Job.Unfailed.agrees_of_writeOne {j : Job} {c : Call} {coming : List Word} {r : Return} (hj : j.Unfailed c)
    (hacc : j.Accounts coming) (h : j.writeOne = .error r) : r.Agrees (process Config.sbox c) := by
  obtain ⟨k, fuel, trace, hk, _, hproc⟩ := hj.process_eq hacc
  obtain ⟨_, hw⟩ | ⟨_, _, _, _, hw⟩ | ⟨hne, hfails, hw⟩ := j.writeOne_cases <;> rw [hw] at h <;> cases h
  have hplaced := hacc.placed
  have hpos := List.length_pos_iff.mpr hne
  obtain ⟨hr, hlen⟩ := hj.reads k (by omega)
  have hchunk : memRead c.input (4 * k) ≠ [] := fun hm => Nat.not_lt.mpr ((memRead_eq_nil _ _).mp hm) hlen
  rw [hj.call, hk] at hfails
  rw [hproc, processLoop_write_fails fuel _ _ _ hr hchunk hfails, hk]
  exact ⟨rfl, rfl⟩

/-- A job that ends without a failing write ends as the procedure does, at the end of the input or at the read that failed (R143,
60_exceptions.md R167). -/
theorem Job.Unfailed.agrees_of_outcome {j : Job} {c : Call} {coming : List Word} {result : Result} (hj : j.Unfailed c)
    (hacc : j.Accounts coming) (h : j.outcome = some result) : (j.finish result).Agrees (process Config.sbox c) := by
  obtain ⟨k, fuel, trace, hk, _, hproc⟩ := hj.process_eq hacc
  obtain ⟨hq, hin, hres, hend⟩ := (j.outcome_eq_some result).mp h
  have hoff : j.offset = 4 * k := by
    have hplaced := hacc.placed
    rw [hq, hin, hres] at hplaced
    simp only [List.length_nil] at hplaced
    omega
  obtain ⟨hf, rfl⟩ | ⟨e, hf, rfl⟩ := hend
  · have hr := hj.exhausted hf
    have hlen := hacc.exhausted hf
    rw [hj.call, hoff] at hlen
    rw [hoff] at hr
    rw [hproc, processLoop_exhausted fuel _ _ _ hr ((memRead_eq_nil _ _).mpr hlen)]
    exact ⟨rfl, rfl⟩
  · obtain ⟨rfl, hr⟩ := hj.failed e hf
    rw [hoff] at hr
    rw [hproc, processLoop_read_fails fuel _ _ _ hr, hoff]
    exact ⟨rfl, rfl⟩

/-- A cycle of a running job ends it as the procedure ends, or goes on with a job that has passed its operations too. -/
theorem Job.Unfailed.move {j : Job} {s : State} {c : Call} {coming : List Word} (hj : j.Unfailed c) (hacc : j.Accounts coming)
    (hphase : j.Waits s coming ∨ j.Issues s coming) :
    (∀ r, j.move s.s3 = .stop r → r.Agrees (process Config.sbox c)) ∧ ∀ j' p, j.move s.s3 = .go j' p → j'.Unfailed c := by
  have hpace : { j with pace := j.pace.tail }.Unfailed c :=
    ⟨hj.call, hj.opened, hj.reads, hj.writes, hj.exhausted, hj.failed⟩
  obtain ⟨k, r, ⟨hk, hu⟩, hw, hm⟩ | ⟨k, result, ⟨hk, hu⟩, ho, hm⟩ | ⟨k, ⟨hk, hu⟩, hm⟩ :=
    Job.move_induction (P := fun k => k.Accounts (coming.drop s.s3.toList.length) ∧ k.Unfailed c)
      (fun _ _ ⟨hk, hu⟩ hw => ⟨hk.writeOne hw, hu.writeOne hk hw⟩) (fun _ ⟨hk, hu⟩ => ⟨hk.readOne, hu.readOne hk⟩)
      j s.s3 ⟨hacc.takePresented hphase, hpace.takeResult s.s3⟩
  all_goals rw [hm]
  · exact ⟨fun _ hr => DriverMove.stop.inj hr ▸ hu.agrees_of_writeOne hk hw, fun _ _ hgo => by cases hgo⟩
  · exact ⟨fun _ hr => DriverMove.stop.inj hr ▸ hu.agrees_of_outcome hk ho, fun _ _ hgo => by cases hgo⟩
  · exact ⟨fun r hr => absurd hr (k.choosePorts_ne_stop _ r), fun j' p hgo => hu.choosePorts hgo⟩

/-! ## What is left to do (log 8) -/

/-- What a job has to do outside the core: each read left weighs more than the Block it may queue, and each Block queued more than
its command on the ports. -/
def Job.work (j : Job) : Nat :=
  (if j.feed = .reading then 8 * (j.call.input.length - j.offset + 1) else 0)
    + j.lead.length + 6 * j.queue.length + j.results.length

/-- What is in the core: a command on the ports weighs 5, and a block less at each stage, a result presented more than one taken. -/
def State.load (s : State) : Nat :=
  5 * (portCommand s.ports).toList.length + 4 * s.s1.toList.length + 3 * s.s2.toList.length + 2 * s.s3.toList.length

/-- At an edge each block in flight moves on, or is discarded, and the result presented goes. -/
theorem State.load_step {s t : State} (h : step s = .next t) :
    t.load + s.inFlight.length + 2 * s.s3.toList.length ≤ s.load + 5 * (portCommand t.ports).toList.length := by
  obtain ⟨_, _, _, _, _, ⟨hr, h1, h2, h3⟩ | ⟨hr, h1, h2, h3⟩⟩ := step_stages h
  · have hnone : portCommand s.ports = none := by simp [portCommand, hr]
    simp only [State.load, State.inFlight, h1, h2, h3, hnone, Option.toList_none, List.length_nil, List.length_append]
    omega
  · simp only [State.load, State.inFlight, h1, h2, h3, Option.length_toList, Option.isSome_map, List.length_append]
    omega

theorem Job.work_takeResult_le (j : Job) (out : Option Word) : (j.takeResult out).work ≤ j.work + out.toList.length := by
  obtain ⟨_, h⟩ | ⟨r, rfl, _, h⟩ := j.takeResult_cases out <;> rw [h]
  · exact Nat.le_add_right _ _
  · simp only [work, List.length_append, List.length_singleton, Option.toList_some]
    omega

/-- A write leaves less to do, unless there is no result to write. -/
theorem Job.work_writeOne {j j' : Job} (h : j.writeOne = .ok j') : j.results = [] ∧ j' = j ∨ j'.work < j.work := by
  obtain ⟨hr, hw⟩ | ⟨r, rs, hr, _, hw⟩ | ⟨_, _, hw⟩ := j.writeOne_cases <;> rw [hw] at h <;> cases h
  · exact .inl ⟨hr, rfl⟩
  · refine .inr ?_
    simp only [work, hr, List.length_cons]
    omega

theorem Job.work_writeOne_le {j j' : Job} (h : j.writeOne = .ok j') : j'.work ≤ j.work :=
  (work_writeOne h).elim (fun hsame => hsame.2 ▸ Nat.le_refl _) Nat.le_of_lt

/-- A read leaves less to do, unless the job reads no more. -/
theorem Job.work_readOne (j : Job) : j.feed ≠ .reading ∧ j.readOne = j ∨ j.readOne.work < j.work := by
  obtain ⟨hf, h⟩ | ⟨hf, _, h⟩ | ⟨hf, _, _, h⟩ | ⟨hf, _, hchunk, h⟩ := j.readOne_cases <;> rw [h]
  · exact .inl ⟨hf, rfl⟩
  · refine .inr ?_
    simp only [work, hf, reduceCtorEq, if_true, if_false]
    omega
  · refine .inr ?_
    simp only [work, hf, reduceCtorEq, if_true, if_false]
    omega
  · have hlen : j.offset < j.call.input.length := Nat.lt_of_not_le fun hle => hchunk ((memRead_eq_nil _ _).mpr hle)
    refine .inr ?_
    simp only [work, hf, if_true, List.length_append, List.length_singleton]
    omega

theorem Job.work_readOne_le (j : Job) : j.readOne.work ≤ j.work :=
  j.work_readOne.elim (fun hsame => Nat.le_of_eq (congrArg work hsame.2)) Nat.le_of_lt

/-- An eager choice of the ports leaves less to do, the new command included, unless no Block is queued. -/
theorem Job.work_choosePorts {j j' : Job} {p : Ports} (hl : ∀ q ∈ j.lead, portCommand q = none)
    (h : j.choosePorts true = .go j' p) :
    j.queue = [] ∧ j' = j ∧ portCommand p = none ∨ j'.work + 5 * (portCommand p).toList.length < j.work := by
  obtain ⟨q, qs, hlead, hch⟩ | ⟨_, hq, hch⟩ | ⟨b, bs, _, hq, _, hch⟩ := j.choosePorts_cases true
  all_goals
    rw [hch] at h
    cases h
  · refine .inr ?_
    have hidle : portCommand p = none := hl p (hlead ▸ List.mem_cons_self)
    simp only [work, hlead, hidle, Option.toList_none, List.length_nil, List.length_cons]
    omega
  · exact .inl ⟨hq.resolve_right nofun, rfl, portCommand_idle⟩
  · refine .inr ?_
    simp only [work, hq, portCommand_command, Option.toList_some, List.length_cons, List.length_nil]
    omega

theorem Job.work_choosePorts_le {j j' : Job} {p : Ports} (hl : ∀ q ∈ j.lead, portCommand q = none)
    (h : j.choosePorts true = .go j' p) : j'.work + 5 * (portCommand p).toList.length ≤ j.work := by
  obtain ⟨_, rfl, hidle⟩ | hless := work_choosePorts hl h
  · simp [hidle]
  · exact Nat.le_of_lt hless

/-- A job that has nothing to read, to issue or to write, and does not end, waits for a result. -/
theorem Job.inFlight_ne_zero {j : Job} (hf : j.feed ≠ .reading) (hq : j.queue = []) (hr : j.results = [])
    (ho : j.outcome = none) : j.inFlight ≠ 0 := by
  intro h0
  cases hfeed : j.feed with
  | reading => exact hf hfeed
  | exhausted => cases ho.symm.trans ((j.outcome_eq_some _).mpr ⟨hq, h0, hr, .inl ⟨hfeed, rfl⟩⟩)
  | failed e => cases ho.symm.trans ((j.outcome_eq_some _).mpr ⟨hq, h0, hr, .inr ⟨e, hfeed, rfl⟩⟩)

/-- The results after the one on the port are those of blocks in flight. -/
theorem Job.length_coming_le {j : Job} {s : State} {coming : List Word} (hphase : j.Waits s coming ∨ j.Issues s coming) :
    (coming.drop s.s3.toList.length).length ≤ s.inFlight.length := by
  obtain hw | hi := hphase
  · rw [hw.coming, List.drop_nil]
    exact Nat.zero_le _
  · rw [hi.coming, s.pending_eq, List.drop_left]
    simp [State.upcoming, State.inFlight, State.result1, State.result2, Option.length_toList]

/-- Once the pace has run out, a cycle has one write, one read and an eager choice of the ports. -/
theorem Job.move_go_of_no_pace {j j' : Job} {out : Option Word} {p : Ports} (hpace : j.pace = [])
    (hgo : j.move out = .go j' p) :
    ∃ j1, ({ j with pace := j.pace.tail }.takeResult out).writeOne = .ok j1 ∧ j1.readOne.outcome = none
      ∧ j1.readOne.choosePorts true = .go j' p := by
  obtain ⟨_, _, hm⟩ | ⟨j1, hw, ⟨_, _, hm⟩ | ⟨ho, hm⟩⟩ := j.move_cases out <;> rw [hm] at hgo
  · cases hgo
  · cases hgo
  · rw [hpace] at hw ho hgo
    refine ⟨j1, ?_, ho, hgo⟩
    simp only [List.headD_nil, Pace.eager, writeMany] at hw
    rw [hpace]
    split at hw
    · cases hw
    · next h => rw [h, hw]

/-- Once the pace has run out, a cycle in which the job goes on leaves less to do. -/
theorem Job.work_move {j j' : Job} {s t : State} {coming : List Word} (hacc : j.Accounts coming)
    (hphase : j.Waits s coming ∨ j.Issues s coming) (h : step s = .next t) (hpace : j.pace = [])
    (hgo : j.move s.s3 = .go j' t.ports) : j'.work + t.load < j.work + s.load := by
  obtain ⟨j1, hw, ho, hch⟩ := Job.move_go_of_no_pace hpace hgo
  have hload := State.load_step h
  have htake : _ ≤ j.work + s.s3.toList.length := Job.work_takeResult_le { j with pace := j.pace.tail } s.s3
  have hplan := ((Job.samePlan_takeResult { j with pace := j.pace.tail } s.s3).writeOne hw).readOne
  have hk := ((hacc.takePresented hphase).writeOne hw).readOne
  have hlead : ∀ q ∈ j1.readOne.lead, portCommand q = none := by
    rw [hplan.lead]
    exact hphase.elim (·.leadIdle) fun hi => by simp [hi.lead]
  have hwrite := Job.work_writeOne_le hw
  have hread := j1.work_readOne_le
  have hchoose := Job.work_choosePorts_le hlead hch
  by_contra hnot
  obtain ⟨hres, hsame⟩ := (Job.work_writeOne hw).resolve_right (by omega)
  obtain ⟨hf, hsame'⟩ := j1.work_readOne.resolve_right (by omega)
  obtain ⟨hq, _⟩ := (Job.work_choosePorts hlead hch).resolve_right (by omega)
  have hwaits : j1.readOne.inFlight ≠ 0 := by
    refine Job.inFlight_ne_zero ?_ hq ?_ ho
    · rwa [hsame']
    · rwa [hsame', hsame]
  have hcount := hk.inFlight ▸ Job.length_coming_le hphase
  omega

/-! ## The run of a call -/

/-- From `s`, after some number of steps the driver is at rest and has returned one more result, which agrees with `spec`. -/
def State.ReturnsAs (s : State) (spec : Return) : Prop :=
  ∃ n t r, steps n s = .next t ∧ t.driver = .idle ∧ t.agenda = s.agenda ∧ t.returns = s.returns ++ [r] ∧ r.Agrees spec

theorem steps_one {s t : State} (h : step s = .next t) : steps 1 s = .next t := by
  rw [steps, h]
  rfl

theorem steps_succ {s t : State} (h : step s = .next t) (n : Nat) : steps (n + 1) s = steps n t := by
  rw [steps, h]

theorem State.returnsAs_of_step {s t : State} {spec : Return} (h : step s = .next t) (hag : t.agenda = s.agenda)
    (hr : t.returns = s.returns) (ht : t.ReturnsAs spec) : s.ReturnsAs spec := by
  obtain ⟨n, u, r, hn, hd, hag', hr', hspec⟩ := ht
  exact ⟨n + 1, u, r, (steps_succ h n).trans hn, hd, hag'.trans hag, by rw [hr', hr], hspec⟩

/-- A running call `c` that has passed its operations so far. -/
structure State.Runs (s : State) (j : Job) (c : Call) : Prop where
  driver   : s.driver = .running j
  inv      : j.Inv s
  unfailed : j.Unfailed c

/-- A cycle of a running call returns what the procedure does, or the call runs on; once its pace has run out, with less to do. -/
theorem State.Runs.step {s : State} {j : Job} {c : Call} (hs : s.Runs j c) : ∃ t, step s = .next t ∧ t.agenda = s.agenda
    ∧ ((t.driver = .idle ∧ ∃ r, t.returns = s.returns ++ [r] ∧ r.Agrees (process Config.sbox c))
      ∨ ∃ j', t.Runs j' c ∧ t.returns = s.returns ∧ j'.pace = j.pace.tail
          ∧ (j.pace = [] → j'.work + t.load < j.work + s.load)) := by
  obtain ⟨hd, hinv, hu⟩ := hs
  obtain ⟨htake, coming, hacc, hphase⟩ := (j.inv_iff s).mp hinv
  obtain ⟨t, h⟩ := exists_step_of_safe (s := s) (by simp [State.safe, htake])
  obtain ⟨hag, htake', ⟨r, hm, hd', hr⟩ | ⟨j', hm, hd', hr⟩⟩ := step_while_running h hd
  · exact ⟨t, h, hag, .inl ⟨hd', r, hr, (hu.move hacc hphase).1 r hm⟩⟩
  · exact ⟨t, h, hag, .inr ⟨j', ⟨hd', Job.inv_of_move_go hinv h htake' hm, (hu.move hacc hphase).2 j' _ hm⟩, hr,
      Job.pace_of_move_go hacc hphase hm, fun hpace => Job.work_move hacc hphase h hpace hm⟩⟩

/-- A call whose pace has run out ends, because each cycle leaves less to do. -/
theorem State.Runs.returnsAs_of_no_pace {c : Call} (n : Nat) : ∀ {s : State} {j : Job}, s.Runs j c → j.pace = [] →
    j.work + s.load < n → s.ReturnsAs (process Config.sbox c) := by
  induction n with
  | zero => exact fun _ _ hn => absurd hn (Nat.not_lt_zero _)
  | succ n ih =>
    intro s j hs hpace hn
    obtain ⟨t, h, hag, ⟨hd, r, hr, hspec⟩ | ⟨j', hs', hr, hpace', hless⟩⟩ := hs.step
    · exact ⟨1, t, r, steps_one h, hd, hag, hr, hspec⟩
    · have hlt := hless hpace
      exact State.returnsAs_of_step h hag hr (ih hs' (by rw [hpace', hpace, List.tail_nil]) (by omega))

/-- Every running call ends: its pace runs out, and then its work. -/
theorem State.Runs.returnsAs {c : Call} (pace : List Pace) : ∀ {s : State} {j : Job}, s.Runs j c → j.pace = pace →
    s.ReturnsAs (process Config.sbox c) := by
  induction pace with
  | nil => exact fun hs hpace => hs.returnsAs_of_no_pace _ hpace (Nat.lt_succ_self _)
  | cons p ps ih =>
    intro s j hs hpace
    obtain ⟨t, h, hag, ⟨hd, r, hr, hspec⟩ | ⟨j', hs', hr, hpace', _⟩⟩ := hs.step
    · exact ⟨1, t, r, steps_one h, hd, hag, hr, hspec⟩
    · exact State.returnsAs_of_step h hag hr (ih hs' (by rw [hpace', hpace, List.tail_cons]))

/-- Settles O50: the call ends at once as the procedure does, or it runs and, whatever its pace, ends so. -/
theorem processAtThePortsIsTheProcedure : Obligations.ProcessAtThePortsIsTheProcedure := by
  intro s c rest hd hs ha
  obtain ⟨t, h⟩ := exists_step_of_safe hs
  obtain ⟨hag, htake, ⟨_, hdr, hr⟩ | ⟨key, mode, trace, hb, ho, hdr, hp, hr⟩⟩ := step_with_call_next h hd ha
  · exact ⟨1, t, _, steps_one h, hdr, hag, hr, rfl, rfl⟩
  · have hruns : t.Runs (Job.start c key mode (s.prepareCycles c.prepare).2 trace) c :=
      ⟨hdr, Job.inv_start h hb htake hp, Job.unfailed_start key mode _ ho⟩
    obtain ⟨n, u, r, hn, hdr', hag', hr', hspec⟩ := hruns.returnsAs c.pace rfl
    exact ⟨n + 1, u, r, (steps_succ h n).trans hn, hdr', hag'.trans hag, by rw [hr', hr], hspec⟩

end Sys2Proof.Machine
end

section
/-! PROOFS. Errors (60_exceptions.md R160 to R169): what can stop a step, what an instruction leaves alone, and how an error ends a
`PROCESS`, at its boundary checks, at the opening of its streams, and at the first operation that fails in its loop. -/

namespace Sys2Proof.Machine

/-! ## The core raises nothing (R161) -/

/-- The host misuses the output exactly when it uses `block_out` while `out_valid` = 0 (10_state.md R30). -/
theorem State.usesNoResult_eq_true_iff (s : State) : s.usesNoResult = true ↔ s.take = .always ∧ s.outValid = false := by
  simp [State.usesNoResult]

/-- Settles O13: of the three things a step can do, the fault is the host's misuse and the others answer a next state. -/
theorem stepStopsOnlyOnHostMisuse : Obligations.StepStopsOnlyOnHostMisuse := by
  intro s
  rw [← s.usesNoResult_eq_true_iff, ← s.usesNoResult_eq_false_iff]
  obtain ⟨hu, h⟩ | ⟨hu, _, h⟩ | ⟨hu, _, h⟩ := step_cases s
  · simp [h, hu, eq_comm]
  · simp [h, hu]
  · simp [h, hu]

/-- Settles O14: a command only advances the pipeline, and a unit only sets the record of its output. -/
theorem everyInstructionCompletesInItsFrame : Obligations.EveryInstructionCompletesInItsFrame := by
  intro i s
  obtain ⟨hcmd, c, h⟩ | ⟨hunit, o, h⟩ := exec_cases i s
  · exact ⟨_, h, rfl, rfl, rfl, rfl, rfl, rfl, fun _ => rfl, fun hn => by simp [hcmd] at hn⟩
  · exact ⟨_, h, rfl, rfl, rfl, rfl, rfl, rfl, fun hn => by simp [hunit] at hn, fun _ => ⟨rfl, rfl, rfl⟩⟩

/-! ## What an error does (R168) -/

/-- Settles O46: the call returns with the error, and only the host's fields change. -/
theorem errorEndsTheProcessAndLeavesTheCore : Obligations.ErrorEndsTheProcessAndLeavesTheCore := by
  intro s e trace n written t
  exact ⟨s.returnCall_driver _, s.returnCall_returns _, s.returnCall_s1 _, s.returnCall_s2 _, s.returnCall_s3 _,
    s.returnCall_unitOut _, s.returnCall_agenda _, s.returnCall_taken _, rfl, rfl⟩

/-! ## The boundary checks (R162, R163, R167) -/

theorem process_of_boundary_error (T : Sbox) {c : Call} {e : HostError} (hb : boundary c = .error e) :
    process T c = ⟨.error e, [], 0, []⟩ := by
  simp only [process, hb]

theorem process_of_open_error (T : Sbox) {c : Call} {key : Word} {mode : Mode} {trace : List StreamOp} {e : HostError}
    (hb : boundary c = .ok (key, mode)) (ho : openStreams c.failing = (trace, some e)) :
    process T c = ⟨.error e, trace, 0, []⟩ := by
  simp only [process, hb, ho]

theorem process_of_opened (T : Sbox) {c : Call} {key : Word} {mode : Mode} {trace : List StreamOp}
    (hb : boundary c = .ok (key, mode)) (ho : openStreams c.failing = (trace, none)) :
    process T c = processLoop T c key mode (processFuel c.input) 0 [] trace 0 := by
  simp only [process, hb, ho]

/-- A call that fails a boundary check returns its error in the next cycle, with nothing opened, issued or written. -/
theorem step_with_rejected_call {s : State} {c : Call} {rest : List Action} {e : HostError} (hd : s.driver = .idle)
    (hs : s.safe) (ha : s.agenda = .process c :: rest) (hb : boundary c = .error e) :
    ∃ t, step s = .next t ∧ t.returns = s.returns ++ [⟨.error e, [], 0, []⟩]
      ∧ t.driver = .idle ∧ t.agenda = rest ∧ t.ports.inValid = 0 ∧ t.ports.rst = false := by
  obtain ⟨t, h⟩ := exists_step_of_safe hs
  obtain ⟨taken, hmove⟩ := s.hostMove_eq_hostChoose
  have herror : s.hostMove = { s with taken := taken, agenda := rest }.raiseError e [] 0 [] := by
    simp only [hmove, State.hostChoose, hd, ha, State.startProcess, hb]
  obtain ⟨hdr', hr', _, _, _, _, hag', _, hiv', hrst'⟩ :=
    errorEndsTheProcessAndLeavesTheCore { s with taken := taken, agenda := rest } e [] 0 []
  obtain ⟨_, hdr, hp, hag, hr, _⟩ := step_stages h
  rw [herror] at hdr hp hag hr
  exact ⟨t, h, hr.trans hr', hdr.trans hdr', hag.trans hag', hp ▸ hiv', hp ▸ hrst'⟩

/-- The loop ends by closing both streams, and its only errors are failures of a stream operation (R164; 45_file_block_processor.md
R148). -/
theorem processLoop_ends (T : Sbox) (c : Call) (key : Word) (mode : Mode) (fuel : Nat) :
    ∀ (a : Nat) (out : List Byte) (trace : List StreamOp) (commands : Nat), ∃ result ops commands' written,
      processLoop T c key mode fuel a out trace commands = ⟨result, ops ++ closeOps, commands', written⟩
      ∧ ∀ e, result = .error e → ∃ op, e = .ioFailure op := by
  induction fuel with
  | zero => exact fun a out trace commands => ⟨_, _, _, _, rfl, nofun⟩
  | succ fuel ih =>
    intro a out trace commands
    by_cases hr : StreamOp.read a ∈ c.failing
    · exact ⟨_, _, _, _, processLoop_read_fails fuel out trace commands hr, fun e he => ⟨_, (Result.error.inj he).symm⟩⟩
    by_cases hm : memRead c.input a = []
    · exact ⟨_, _, _, _, processLoop_exhausted fuel out trace commands hr hm, nofun⟩
    by_cases hw : StreamOp.write a ∈ c.failing
    · exact ⟨_, _, _, _, processLoop_write_fails fuel out trace commands hr hm hw,
        fun e he => ⟨_, (Result.error.inj he).symm⟩⟩
    · rw [processLoop_pass fuel out trace commands hr hm hw]
      exact ih _ _ _ _

/-- An accepted call can only fail with `IOFailure`. -/
theorem process_error_of_accepted {T : Sbox} {c : Call} {key : Word} {mode : Mode} {e : HostError}
    (hb : boundary c = .ok (key, mode)) (h : (process T c).result = .error e) : ∃ op, e = .ioFailure op := by
  obtain ⟨_, ho⟩ | ⟨_, _, ho⟩ | ⟨_, _, ho⟩ := openStreams_cases c.failing
  · rw [process_of_open_error T hb ho] at h
    exact ⟨_, (Result.error.inj h).symm⟩
  · rw [process_of_open_error T hb ho] at h
    exact ⟨_, (Result.error.inj h).symm⟩
  · obtain ⟨_, _, _, _, hloop, hio⟩ :=
      processLoop_ends T c key mode (processFuel c.input) 0 [] [.openInput, .openOutput] 0
    rw [process_of_opened T hb ho, hloop] at h
    exact hio e h

/-- An error other than `IOFailure` is that of a boundary check. -/
theorem process_error_iff_boundary {T : Sbox} {c : Call} {e : HostError} (hio : ∀ op, e ≠ .ioFailure op) :
    (process T c).result = .error e ↔ boundary c = .error e := by
  constructor
  · intro h
    cases hb : boundary c with
    | error e' =>
      rw [process_of_boundary_error T hb] at h
      rw [Result.error.inj h]
    | ok km =>
      obtain ⟨op, he⟩ := process_error_of_accepted hb h
      exact absurd he (hio op)
  · intro hb
    rw [process_of_boundary_error T hb]

theorem boundary_eq_invalidKey_iff (c : Call) (v : Int) :
    boundary c = .error (.invalidKey v) ↔ ¬ keyInRange c.keyValue ∧ v = c.keyValue := by
  obtain ⟨hk, h⟩ | ⟨hk, _, h⟩ | ⟨hk, _, h⟩ | ⟨hk, _, h⟩ := boundary_cases c
  · simp [h, hk, eq_comm]
  all_goals simp [h, hk]

theorem boundary_eq_invalidMode_iff (c : Call) (v : String) :
    boundary c = .error (.invalidMode v) ↔ keyInRange c.keyValue ∧ ¬ modeKnown c.modeValue ∧ v = c.modeValue := by
  obtain ⟨hk, h⟩ | ⟨hk, hm, h⟩ | ⟨_, hm, h⟩ | ⟨_, hm, h⟩ := boundary_cases c
  · simp [h, hk]
  · rw [h, and_iff_right hk, and_iff_right hm]
    simp [eq_comm]
  all_goals simp [h, hm]

/-- Settles O44: the key is checked first, and no later error is `InvalidKey`. -/
theorem invalidKeyBeforeAnything : Obligations.InvalidKeyBeforeAnything := by
  intro s c rest hd hs ha
  have hiff (v : Int) :
      (process Config.sbox c).result = .error (.invalidKey v) ↔ ¬ keyInRange c.keyValue ∧ v = c.keyValue :=
    (process_error_iff_boundary (e := .invalidKey v) fun _ => nofun).trans (boundary_eq_invalidKey_iff c v)
  refine ⟨fun hk => ?_, ⟨fun ⟨v, hv⟩ => ((hiff v).mp hv).1, fun hk => ⟨_, (hiff _).mpr ⟨hk, rfl⟩⟩⟩,
    fun v hv => ((hiff v).mp hv).2⟩
  exact step_with_rejected_call hd hs ha ((boundary_eq_invalidKey_iff c _).mpr ⟨hk, rfl⟩)

/-- Settles O45: with the key in range the mode decides, and no later error is `InvalidMode`. -/
theorem invalidModeBeforeAnything : Obligations.InvalidModeBeforeAnything := by
  intro s c rest hd hs ha hk
  have hiff (v : String) : (process Config.sbox c).result = .error (.invalidMode v)
      ↔ keyInRange c.keyValue ∧ ¬ modeKnown c.modeValue ∧ v = c.modeValue :=
    (process_error_iff_boundary (e := .invalidMode v) fun _ => nofun).trans (boundary_eq_invalidMode_iff c v)
  refine ⟨fun he hd' => ?_, ⟨fun ⟨v, hv⟩ => ?_, fun hm => ⟨_, (hiff _).mpr ⟨hk, not_or.mpr hm, rfl⟩⟩⟩, fun v hv => ?_⟩
  · exact step_with_rejected_call hd hs ha ((boundary_eq_invalidMode_iff c _).mpr ⟨hk, not_or.mpr ⟨he, hd'⟩, rfl⟩)
  · obtain ⟨_, hm, _⟩ := (hiff v).mp hv
    exact not_or.mp hm
  · obtain ⟨_, _, hvalue⟩ := (hiff v).mp hv
    exact hvalue

/-! ## The first failing operation (R164, R168) -/

theorem openStreams_of_input_failing {f : List StreamOp} (hi : StreamOp.openInput ∈ f) :
    openStreams f = ([.openInput], some (.ioFailure .openInput)) := by
  simp [openStreams, hi]

theorem openStreams_of_output_failing {f : List StreamOp} (hi : StreamOp.openInput ∉ f) (ho : StreamOp.openOutput ∈ f) :
    openStreams f = ([.openInput, .openOutput, .closeInput], some (.ioFailure .openOutput)) := by
  simp [openStreams, hi, ho]

theorem read_mem_passOps (m k : Nat) : StreamOp.read (4 * m) ∈ passOps k ↔ m < k := by
  simp [passOps]

/-- The first `k` chunks of a stream that has so many are written as `4 * k` bytes. -/
theorem length_transformBytes_take (T : Sbox) (mode : Mode) (key : Word) {input : List Byte} {k : Nat}
    (hk : k ≤ (input.length + 3) / 4) : (transformBytes T mode key (input.take (4 * k))).length = 4 * k := by
  rw [length_transformBytes, List.length_take]
  omega

/-- A call that passes `k` chunks and whose next read fails. -/
theorem process_of_read_failure (T : Sbox) {c : Call} {key : Word} {mode : Mode} {trace : List StreamOp} {k : Nat}
    (hb : boundary c = .ok (key, mode)) (ho : openStreams c.failing = (trace, none)) (hk : PassesChunks c k)
    (hr : StreamOp.read (4 * k) ∈ c.failing) :
    process T c = ⟨.error (.ioFailure (.read (4 * k))), trace ++ passOps k ++ [.read (4 * k)] ++ closeOps, k,
      transformBytes T mode key (c.input.take (4 * k))⟩ := by
  obtain ⟨fuel, h⟩ := process_after_passes T hb ho hk
  rw [h, processLoop_read_fails fuel _ _ _ hr]

/-- A call that passes `k` chunks, reads one more, and whose write of its result fails. -/
theorem process_of_write_failure (T : Sbox) {c : Call} {key : Word} {mode : Mode} {trace : List StreamOp} {k : Nat}
    (hb : boundary c = .ok (key, mode)) (ho : openStreams c.failing = (trace, none)) (hk : PassesChunks c k)
    (hr : StreamOp.read (4 * k) ∉ c.failing) (hlen : 4 * k < c.input.length) (hw : StreamOp.write (4 * k) ∈ c.failing) :
    process T c = ⟨.error (.ioFailure (.write (4 * k))),
      trace ++ passOps k ++ [.read (4 * k)] ++ [.write (4 * k)] ++ closeOps, k + 1,
      transformBytes T mode key (c.input.take (4 * k))⟩ := by
  obtain ⟨fuel, h⟩ := process_after_passes T hb ho hk
  have hchunk : memRead c.input (4 * k) ≠ [] := fun hm => Nat.not_lt.mpr ((memRead_eq_nil _ _).mp hm) hlen
  rw [h, processLoop_write_fails fuel _ _ _ hr hchunk hw]

/-- Settles O56: an opening that fails, or a loop that passes `n` chunks and fails at the read or the write of the next. -/
theorem firstFailureEndsTheProcess : Obligations.FirstFailureEndsTheProcess := by
  intro T c key mode hb
  refine ⟨fun hi => ?_, fun hi ho => ?_, fun hi ho n hpass => ?_⟩
  · exact process_of_open_error T hb (openStreams_of_input_failing hi)
  · rw [process_of_open_error T hb (openStreams_of_output_failing hi ho)]
    exact ⟨rfl, rfl, rfl, by simp⟩
  · have hopen := openStreams_of_not_failing hi ho
    have hpasses (hn : n ≤ (c.input.length + 3) / 4) : PassesChunks c n := fun m hm => by
      obtain ⟨hr, hw⟩ := hpass m hm
      exact ⟨hr, hw, by omega⟩
    constructor
    · intro hn hr
      rw [process_of_read_failure T hb hopen (hpasses hn) hr]
      refine ⟨rfl, length_transformBytes_take T mode key hn, rfl, by simp [closeOps], by simp [closeOps], fun m hm => ?_⟩
      simp [closeOps, read_mem_passOps, Nat.lt_asymm hm, Nat.ne_of_gt hm]
    · intro hn hr hw
      rw [process_of_write_failure T hb hopen (hpasses (Nat.le_of_lt hn)) hr (by omega) hw]
      refine ⟨rfl, length_transformBytes_take T mode key (Nat.le_of_lt hn), rfl, by simp [closeOps], by simp [closeOps],
        fun m hm => ?_⟩
      simp [closeOps, read_mem_passOps, Nat.lt_asymm hm, Nat.ne_of_gt hm]

/-! ## Closing the streams (R169; 45_file_block_processor.md R148) -/

/-- The loop depends on which reads and writes fail, and on no other operation. -/
theorem processLoop_congr_failing (T : Sbox) (c : Call) (key : Word) (mode : Mode) {f : List StreamOp}
    (hr : ∀ a, StreamOp.read a ∈ f ↔ StreamOp.read a ∈ c.failing)
    (hw : ∀ a, StreamOp.write a ∈ f ↔ StreamOp.write a ∈ c.failing) (fuel : Nat) :
    ∀ (a : Nat) (out : List Byte) (trace : List StreamOp) (commands : Nat),
      processLoop T { c with failing := f } key mode fuel a out trace commands
        = processLoop T c key mode fuel a out trace commands := by
  induction fuel with
  | zero => exact fun _ _ _ _ => rfl
  | succ fuel ih =>
    intro a out trace commands
    simp only [processLoop, hr, hw, ih]

/-- `PROCESS` depends on which opens, reads and writes fail, and not on the closes. -/
theorem process_congr_failing (T : Sbox) (c : Call) {f : List StreamOp}
    (h : ∀ op, op ∉ closeOps → (op ∈ f ↔ op ∈ c.failing)) : process T { c with failing := f } = process T c := by
  have hopen : openStreams f = openStreams c.failing := by
    simp only [openStreams, h .openInput (by decide), h .openOutput (by decide)]
  have hloop := processLoop_congr_failing T c (f := f) (hr := fun a => h (.read a) (by simp [closeOps]))
    (hw := fun a => h (.write a) (by simp [closeOps]))
  have hb : boundary { c with failing := f } = boundary c := rfl
  simp only [process, hb, hopen, hloop]

/-- Settles O57: `PROCESS` does not depend on the closes, and the loop, which alone has both streams open, closes both. -/
theorem closeChangesNothingAndHappensAlways : Obligations.CloseChangesNothingAndHappensAlways := by
  intro T c
  refine ⟨process_congr_failing T c fun op hop => ?_, ?_⟩
  · rw [List.mem_append]
    exact or_iff_left hop
  cases hb : boundary c with
  | error e => simp [process_of_boundary_error T hb]
  | ok km =>
    obtain ⟨key, mode⟩ := km
    obtain ⟨hi, ho⟩ | ⟨_, hout, ho⟩ | ⟨_, _, ho⟩ := openStreams_cases c.failing
    · -- the only stream touched is the one whose opening failed
      simp [process_of_open_error T hb ho, hi]
    · simp [process_of_open_error T hb ho, hout]
    · obtain ⟨_, ops, _, _, hloop, _⟩ :=
        processLoop_ends T c key mode (processFuel c.input) 0 [] [.openInput, .openOutput] 0
      rw [process_of_opened T hb ho, hloop]
      exact ⟨fun _ _ => by simp [closeOps], fun _ _ => by simp [closeOps]⟩

end Sys2Proof.Machine
end

section
/-! PROOFS. Reset and hazards (70_reset_and_hazards.md): what a reset edge ignores and discards (R180, R182), what becomes of a
result that the host does not take (R186), and the empty pipeline that the first command of a `PROCESS` finds (R181). -/

namespace Sys2Proof.Machine

/-! ## The next state of a safe cycle (44_block_cipher.md R130) -/

/-- After the host's half of a safe cycle the edge resets the core or advances it with the command on the ports. -/
theorem step_of_safe {s : State} (hs : s.safe) :
    step s = .next (if s.ports.rst = true then s.hostMove.resetEdge
      else s.hostMove.advance Config.sbox (portCommand s.ports)) := by
  obtain ⟨hu, _⟩ | ⟨_, hr, h⟩ | ⟨_, hr, h⟩ := step_cases s
  · rw [s.usesNoResult_eq_false_iff.mpr hs] at hu
    cases hu
  · rw [h, if_pos hr]
  · rw [h, hr, if_neg Bool.false_ne_true, portCommand, hr]
    simp only [Bool.false_eq_true, false_or]

/-! ## What the host's half of a cycle depends on (R186; log 15) -/

/-- A host that looks at the result port takes what is presented there, and nothing else changes. -/
theorem State.hostTake_eq (s : State) :
    s.hostTake = { s with taken := if s.take = .ignore then s.taken else s.taken ++ s.s3.toList } := by
  obtain ⟨_, _, s3, _, take, _, _, _, _, _⟩ := s
  cases take <;> cases s3 <;> simp [State.hostTake]

/-- Choosing the ports of the next cycle leaves alone what the host has taken. -/
theorem State.hostChoose_taken (s : State) : s.hostChoose.taken = s.taken := by
  unfold State.hostChoose
  split
  · split <;> rfl
  · split
    · rfl
    · rfl
    · rename_i c rest _
      obtain ⟨_, _, h⟩ | ⟨_, _, _, _, _, _, h⟩ | ⟨_, _, _, _, _, h⟩ :=
        State.startProcess_cases { s with agenda := rest } c <;> rw [h] <;> rfl

/-- The cycles that make the pipeline empty depend only on how many it needs. -/
theorem State.prepareCycles_congr {s s' : State} (h : s.busy = s'.busy) (p : Prepare) :
    s.prepareCycles p = s'.prepareCycles p := by
  cases p with
  | reset extra => rfl
  | drain => rw [s.prepareCycles_drain, s'.prepareCycles_drain, h]

/-- A call depends on the ports only by how long the pipeline needs to be empty, and not on the result presented. -/
theorem State.startProcess_congr (s : State) (c : Call) {p : Ports} {d : Option Word}
    (h : { s with ports := p }.busy = s.busy) :
    { s with ports := p, s3 := d }.startProcess c = { s.startProcess c with s3 := d } := by
  have hprep : { s with ports := p, s3 := d }.prepareCycles c.prepare = s.prepareCycles c.prepare :=
    State.prepareCycles_congr h c.prepare
  simp only [State.startProcess, hprep]
  cases boundary c with
  | error e => rfl
  | ok km => rcases openStreams c.failing with ⟨trace, _ | e⟩ <;> rfl

/-- Outside a `PROCESS` the host chooses without the result presented, and all it needs of the ports is how long the pipeline needs
to be empty. -/
theorem State.hostChoose_of_idle {s : State} (hd : s.driver = .idle) {p : Ports} {d : Option Word}
    (h : { s with ports := p }.busy = s.busy) :
    { s with ports := p, s3 := d }.hostChoose = { s.hostChoose with s3 := d } := by
  match ha : s.agenda with
  | [] => simp only [State.hostChoose, hd, ha]
  | .cycle _ _ :: _ => simp only [State.hostChoose, hd, ha]
  | .process c :: rest =>
    simp only [State.hostChoose, hd, ha]
    exact State.startProcess_congr { s with driver := .idle, agenda := rest } c h

theorem State.with_s3_self {s : State} {d : Option Word} (h : s.s3 = d) : { s with s3 := d } = s := by
  rw [← h]

/-- All that the host needs of the ports is how long the pipeline needs to be empty, and a running `PROCESS` needs nothing. -/
theorem State.hostChoose_congr_ports (s : State) {p : Ports} (h : { s with ports := p }.busy = s.busy) :
    { s with ports := p }.hostChoose = s.hostChoose := by
  cases hd : s.driver with
  | running j =>
    simp only [State.hostChoose, hd, State.blockOut]
    cases j.move s.s3 <;> rfl
  | idle =>
    obtain ⟨_, _, h3, _⟩ := s.hostChoose_core
    rw [← hd]
    exact (State.hostChoose_of_idle hd h).trans (State.with_s3_self h3)

theorem State.hostMove_congr_ports (s : State) {p : Ports} (h : { s with ports := p }.busy = s.busy) :
    { s with ports := p }.hostMove = s.hostMove := by
  rw [State.hostMove, State.hostMove, State.hostTake_eq, State.hostTake_eq]
  exact State.hostChoose_congr_ports { s with taken := _ } h

/-- Outside a `PROCESS` a host that does not look at the result port does not depend on what is there. -/
theorem State.hostMove_ignores_s3 {s : State} (d : Option Word) (htake : s.take = .ignore) (hd : s.driver = .idle) :
    { s with s3 := d }.hostMove = { s.hostMove with s3 := d } := by
  rw [State.hostMove, State.hostMove, State.hostTake_eq, State.hostTake_eq, if_pos htake, if_pos htake]
  exact State.hostChoose_of_idle hd rfl

/-! ## The reset edge (R180) -/

/-- After a reset cycle the pipeline is empty, whatever else is on the ports (44_block_cipher.md R133). -/
theorem State.busy_of_reset {s : State} (hr : s.ports.rst = true) : s.busy = 0 := if_pos hr

/-- A reset edge leads where it leads with nothing else on the ports. -/
theorem step_of_reset {s : State} (hs : s.safe) {p : Ports} (hr : p.rst = true) :
    step { s with ports := p } = .next { s with ports := Ports.reset }.hostMove.resetEdge := by
  have hbusy : { s with ports := p }.busy = { s with ports := Ports.reset }.busy :=
    (State.busy_of_reset hr).trans (State.busy_of_reset rfl).symm
  have hmove : { s with ports := p }.hostMove = { s with ports := Ports.reset }.hostMove :=
    State.hostMove_congr_ports { s with ports := Ports.reset } hbusy
  rw [step_of_safe (s := { s with ports := p }) hs, if_pos hr, hmove]

/-- Settles O10: both cycles lead to the one next state of a reset cycle, whose stages are bubbles. -/
theorem resetEdgeIgnoresTheCommand : Obligations.ResetEdgeIgnoresTheCommand := by
  intro s iv m k b hs
  exact ⟨_, step_of_reset hs rfl, step_of_reset hs rfl, rfl, rfl, rfl, rfl⟩

/-! ## Commands in flight at a reset (R182) -/

/-- At any edge each valid bit takes the one before it, unless a reset clears it (10_state.md R25). -/
theorem State.valid_bits_after_step {s t : State} (h : step s = .next t) :
    t.v1 = (portCommand s.ports).isSome ∧ t.v2 = (!s.ports.rst && s.v1) ∧ t.v3 = (!s.ports.rst && s.v2) := by
  cases hr : s.ports.rst with
  | true =>
    obtain ⟨h1, h2, h3⟩ := State.valid_bits_after_reset h hr
    simp [h1, h2, h3, portCommand, hr]
  | false =>
    obtain ⟨h1, h2, h3⟩ := State.valid_bits_after_advance h hr
    simp [h1, h2, h3]

/-- Settles O38: the valid bit of a command is followed from `V1` to `V3`, through two edges that can clear it. -/
theorem resetDiscardsCommandsInFlight : Obligations.ResetDiscardsCommandsInFlight := by
  refine ⟨fun s0 s1 s2 s3 h0 h1 h2 => ?_, fun s d r h3 => ⟨congrArg Option.isSome h3, h3⟩, fun s t h hr => ?_⟩
  · obtain ⟨hfirst, _, _⟩ := State.valid_bits_after_step h0
    obtain ⟨_, hsecond, _⟩ := State.valid_bits_after_step h1
    obtain ⟨_, _, hthird⟩ := State.valid_bits_after_step h2
    rw [State.outValid, hthird, hsecond, hfirst]
    simp only [Bool.and_eq_true, Bool.not_eq_true', portCommand_isSome_iff]
    tauto
  · obtain ⟨h1, h2, h3⟩ := State.valid_bits_after_reset h hr
    exact ⟨h1, h2, h3, h3⟩

/-! ## A result not taken (R186) -/

/-- What the host has taken after a cycle: the result presented is added if the host looks at the port. -/
theorem step_taken {s t : State} (h : step s = .next t) :
    t.taken = if s.take = .ignore then s.taken else s.taken ++ s.s3.toList := by
  have hmove : s.hostMove.taken = if s.take = .ignore then s.taken else s.taken ++ s.s3.toList := by
    rw [State.hostMove, State.hostChoose_taken, State.hostTake_eq]
  obtain ⟨_, h'⟩ | ⟨_, _, h'⟩ | ⟨_, _, h'⟩ := step_cases s <;> rw [h] at h' <;> cases h'
  · exact hmove
  · exact hmove

/-- A host that does not look at the result port cannot misuse it (10_state.md R30). -/
theorem State.safe_of_take_ignore {s : State} (htake : s.take = .ignore) : s.safe := by
  simp [State.safe, htake]

/-- Settles O43: the host depends on the result presented only by taking it, and either edge overwrites stage 3. -/
theorem resultMustBeTakenInItsCycle : Obligations.ResultMustBeTakenInItsCycle := by
  intro s t h
  refine ⟨fun htake => (step_taken h).trans (if_pos htake), fun htake => (step_taken h).trans (if_neg htake),
    fun d htake hd => ?_⟩
  have hsafe' : { s with s3 := d }.safe := State.safe_of_take_ignore htake
  rw [← h, step_of_safe (State.safe_of_take_ignore htake), step_of_safe hsafe', State.hostMove_ignores_s3 d htake hd]
  rfl

/-! ## The first command of a `PROCESS` (R181, 60_exceptions.md R168) -/

/-- A job that has issued no command has taken and written no result, and none is to come. -/
theorem Job.Accounts.of_no_command {j : Job} {coming : List Word} (hj : j.Accounts coming) (hc : j.commands = 0) :
    j.results = [] ∧ j.written = [] ∧ coming = [] := by
  have hissued := hj.issued
  have hplaced := hj.placed
  have hflight := hj.inFlight
  refine ⟨List.eq_nil_of_length_eq_zero ?_, List.eq_nil_of_length_eq_zero ?_, List.eq_nil_of_length_eq_zero ?_⟩ <;> omega

/-- With no result to come the pipeline is empty when this cycle is over (44_block_cipher.md R133). -/
theorem State.busy_of_pending_nil {T : Sbox} {s : State} (h : s.pending T = []) : s.busy = 0 := by
  simp only [State.pending, List.append_eq_nil_iff, Option.toList_eq_nil_iff, Option.map_eq_none_iff] at h
  obtain ⟨⟨⟨_, h2⟩, h1⟩, hp⟩ := h
  simp [State.busy, h1, h2, hp]

/-- In either phase a job to which no result is to come has cycles enough left before its first command. -/
theorem Job.busy_le_lead {j : Job} {s : State} (hphase : j.Waits s [] ∨ j.Issues s []) : s.busy ≤ j.lead.length := by
  obtain hw | hi := hphase
  · exact hw.busy
  · rw [State.busy_of_pending_nil hi.coming.symm]
    exact Nat.zero_le _

/-- A driver that issues a command has no cycle left before it, and counts it as one more in flight. -/
theorem Job.choosePorts_issues {k j' : Job} {issue : Bool} {p : Ports} (h : k.choosePorts issue = .go j' p)
    (hc : j'.commands ≠ k.commands) :
    k.lead = [] ∧ (∃ b, p = Ports.command k.mode k.key b)
    ∧ j'.inFlight = k.inFlight + 1 ∧ j'.results = k.results ∧ j'.written = k.written := by
  obtain ⟨_, _, _, hch⟩ | ⟨_, _, hch⟩ | ⟨b, _, hlead, _, _, hch⟩ := k.choosePorts_cases issue <;> rw [hch] at h <;> cases h
  · exact absurd rfl hc
  · exact absurd rfl hc
  · exact ⟨hlead, ⟨b, rfl⟩, rfl, rfl, rfl⟩

/-- Settles O58: with no command issued nothing is the job's own, and the command waits until the pipeline needs no more cycles. -/
theorem firstCommandFindsThePipelineEmpty : Obligations.FirstCommandFindsThePipelineEmpty := by
  intro s t j j' hs hd h hd' hc hc'
  obtain ⟨_, coming, hacc, hphase⟩ := (j.inv_iff s).mp ((State.inv_of_driver_running hd).mp hs)
  obtain ⟨_, _, rfl⟩ := hacc.of_no_command hc
  obtain ⟨_, _, ⟨_, _, hidle, _⟩ | ⟨j'', hgo, hrun, _⟩⟩ := step_while_running h hd
  · rw [hd'] at hidle
    cases hidle
  · rw [hd', Driver.running.injEq] at hrun
    subst hrun
    obtain ⟨k, issue, hk, hplan, hch⟩ := Job.accounts_of_move_go hacc hphase hgo
    have hkc : k.commands = 0 := hplan.commands.trans hc
    obtain ⟨hlead, ⟨b, hp⟩, hflight, hres, hwr⟩ := Job.choosePorts_issues hch (hkc ▸ hc')
    have hjlead : j.lead = [] := hplan.lead.symm.trans hlead
    have hbusy : s.busy = 0 := Nat.le_zero.mp (List.length_eq_zero_iff.mpr hjlead ▸ Job.busy_le_lead hphase)
    obtain ⟨h1, h2, h3⟩ := State.stages_of_busy_zero h hbusy
    obtain ⟨hkres, hkwr, hnone⟩ := hk.of_no_command hkc
    have hkflight : k.inFlight = 0 := by rw [hk.inFlight, hnone, List.length_nil]
    refine ⟨h1, h2, h3, hp ▸ rfl, hp ▸ rfl, hp ▸ hplan.key, hp ▸ congrArg Mode.bit hplan.mode, ?_, ?_, ?_⟩
    · rw [hflight, hkflight]
    · rw [hres, hkres]
    · rw [hwr, hkwr]

end Sys2Proof.Machine
end
